-- ==== Sys2Proof/Word.lean ====
section
/-! DEFINITION. The words of the block and of its two input ports: 8-bit raw bytes, 7-bit stripped values, 4-bit
command words (30_encoding.md R70, R72, R77). -/

namespace Sys2Proof

/-- A raw byte as the byte source delivers it: bit 7 is the parity bit, bits 6..0 the data bits (R70). -/
abbrev Raw := BitVec 8

/-- A byte after parity stripping: the value every framer rule works on (R72). -/
abbrev Val := BitVec 7

/-- A command word of the host: `CMD` in bits 1..0, `HINT` in bits 3..2 (R77). -/
abbrev CmdWord := BitVec 4

/-- What the block takes in: a raw byte from the byte source, or a command word from the host. The two formats of
spec/opcode_table.json (`raw_byte`, `command_word`) are two different ports of the block, so a number alone does not say
which of the two it is. -/
inductive InWord where
  | raw (r : Raw)
  | command (w : CmdWord)
  deriving DecidableEq, Repr

end Sys2Proof
end

