-- ==== Sys2Proof/Config.lean ====
section
/-! DEFINITION. The implementation parameters of the block (00_scope.md R8, R9). -/

namespace Sys2Proof

/-- The one parameter the spec asks a model to take as a configuration field (R8, 93_implementation_defined.md item 1):
the capacity of the working buffer. -/
structure Config where
  bufCap : Nat
  deriving DecidableEq, Repr

namespace Config

/-- `BUF_CAP` of this hardware (R8, 92_eei_decisions.md D5). -/
def hardware : Config := ⟨37⟩

/-- `TAG_CAP`: the most tag bytes before a splitter must appear (R8). -/
def tagCap : Nat := 8

/-- `DATA_CAP`: the capacity of the output data field (R8, R177). -/
def dataCap (c : Config) : Nat := c.bufCap - 3

/-- `N_SAMPLES`: the low pulses DETECT measures (R8). -/
def nSamples : Nat := 10

/-- The closed window of minimum widths that means 1200 baud, in µs (R8, R104). -/
def w1200 : Nat × Nat := (666, 1000)

/-- The closed window of minimum widths that means 9600 baud, in µs (R8, R104). -/
def w9600 : Nat × Nat := (83, 125)

/-- A configuration with `BUF_CAP < TAG_CAP + 1` is ill-formed and must be refused (R9). -/
abbrev wf (c : Config) : Prop := tagCap + 1 ≤ c.bufCap

end Config

/-! The control and splitter byte values, as 7-bit values (R8). -/
namespace Ascii

def stx : Val := 0x02#7
def etx : Val := 0x03#7
def lf : Val := 0x0A#7
def cr : Val := 0x0D#7
def tab : Val := 0x09#7
def sp : Val := 0x20#7

end Ascii

end Sys2Proof
end

