-- ==== Sys2Proof/Machine/Operands.lean ====
section
/-! DEFINITION. The operand forms of the byte classes: the fields of a raw byte, its parity, the splitter test
(30_encoding.md R70 to R75). -/

namespace Sys2Proof.Machine

/-- The number of set bits (R10). -/
def popcount {n : Nat} (v : BitVec n) : Nat :=
  (List.range n).countP fun i => v.getLsbD i

/-- Field `P` of a raw byte: bit 7 (R70). -/
def parityBit (r : Raw) : BitVec 1 :=
  r.extractLsb' 7 1

/-- Parity stripping: `v = r[6:0]` (R72). -/
def strip (r : Raw) : Val :=
  r.extractLsb' 0 7

/-- The raw byte with parity bit `p` and data bits `d` (R70). -/
def joinRaw (p : BitVec 1) (d : Val) : Raw :=
  p ++ d

/-- The parity validator's test: an even number of set bits over all 8 bits is parity-bad (R71). -/
abbrev parityBad (r : Raw) : Prop :=
  popcount r % 2 = 0

/-- The one valid raw byte of a 7-bit value: the parity bit is set when the value has an even number of set bits (R74). -/
def validRaw (v : Val) : Raw :=
  joinRaw (if popcount v % 2 = 0 then 1#1 else 0#1) v

/-- TAB or SPACE: the class SPLITTER (R75). -/
abbrev isSplitter (v : Val) : Prop :=
  v = Ascii.tab ∨ v = Ascii.sp

/-- The values that have a row of their own; every other value is OTHER (R75, R145). -/
abbrev isNamed (v : Val) : Prop :=
  v = Ascii.stx ∨ v = Ascii.etx ∨ v = Ascii.lf ∨ v = Ascii.cr ∨ isSplitter v

end Sys2Proof.Machine
end

