-- ==== Sys2Proof/Machine/State.lean ====
section
/-! DEFINITION. The state of the block and of the three external agents it meets, as plain data (10_state.md R20 to R31,
20_memory.md R53, 40_baud_detector.md R101). -/

namespace Sys2Proof.Machine

/-- Register `STATE` (R24). -/
inductive ParserState where
  /-- AwaitingFrameStart -/
  | afs
  /-- AwaitingDatasetOrFrameEnd -/
  | adfe
  /-- ParsingTag -/
  | pt
  /-- ParsingDataAwaitingDatasetEnd -/
  | pd
  deriving DecidableEq, Repr

/-- What register `MIN` holds while DETECT runs: `INF` before the first sample, then a width in µs (R29). -/
inductive PulseMin where
  | inf
  | us (width : Nat)
  deriving DecidableEq, Repr

/-- The two baud rates (R79). -/
inductive BaudRate where
  | b1200
  | b9600
  deriving DecidableEq, Repr

/-- The eight error kinds (R200). -/
inductive ErrorKind where
  | parityError
  | unexpectedByte
  | tagTooLong
  | datasetTooLong
  | invalidChecksum
  | invalidSplitter
  | invalidFieldCount
  | detectionFailed
  deriving DecidableEq, Repr

/-- The outcome a command returns (R80). A field that is not meaningful for the kind does not exist here
(92_eei_decisions.md D24); Machine/Flags.lean gives the record with its fields and codes. -/
inductive CmdOutcome where
  | empty
  | produced (tag data : List Val)
  | error (kind : ErrorKind)
  | rate (r : BaudRate)
  deriving DecidableEq, Repr

/-- Which transaction is in progress (R58): none, the drain loop of a POLL (R121), or the sampling of a DETECT without a
hint (R103). The other commands begin and end in one step. -/
inductive Activity where
  | idle
  | polling
  | detecting
  deriving DecidableEq, Repr

/-- What an external agent is going to do, turn by turn, as plain data: first the turns of `coming`, then the turns of
`repeating` over and over, or nothing at all when that list is empty. DESIGN CHOICE (notes/assumptions/3.md). -/
structure Feed (α : Type) where
  coming : List α
  repeating : List α
  deriving DecidableEq, Repr

/-- The feed of an agent that never does anything. -/
def Feed.silent {α : Type} : Feed α := ⟨[], []⟩

/-- The registers of the block (`parser` to `idx`, R20), its configuration, the transaction in progress with the outcome
just returned, and the external agents: the host, the byte source with its transport, and the line reader (R21). -/
structure State where
  /-- `STATE` (R24). -/
  parser : ParserState
  /-- `LEN`, the number of valid bytes in `BUF` (R25). -/
  len : Nat
  /-- `SPLIT`, the active splitter; 0 is `NONE` (R26). -/
  split : Val
  /-- `BUF`, a file of `BUF_CAP` cells, each a 7-bit value or no value (R27). -/
  buf : List (Option Val)
  /-- `MIN`; no value outside a running DETECT (R29). -/
  min : Option PulseMin
  /-- `IDX`, the samples taken; no value outside a running DETECT (R29). -/
  idx : Option Nat
  /-- The configuration, which nothing changes (R8). -/
  cfg : Config
  /-- The transaction in progress (R58, R121). -/
  activity : Activity
  /-- The outcome of the last command, until the next command is issued (R31, R237). No rule reads it. -/
  outcome : Option CmdOutcome
  /-- The host: at each turn the block is free, a command word or none (R77). -/
  commands : Feed (Option CmdWord)
  /-- The byte source `Q`, head first (R53). -/
  source : List Raw
  /-- The transport: the raw bytes it appends to `Q` before each step (R53). -/
  arrivals : Feed (List Raw)
  /-- The line reader: the width `LineMeasureLow` returns next, or none while it has not returned (R101). -/
  line : Feed (Option Nat)
  deriving DecidableEq, Repr

/-- `SPLIT = NONE` (R26). -/
def splitNone : Val := 0#7

/-- The power-on state (R230): the block idle, no byte in the source and no command, byte or pulse to come. -/
def State.reset : State where
  parser := .afs
  len := 0
  split := splitNone
  buf := List.replicate Config.hardware.bufCap none
  min := none
  idx := none
  cfg := Config.hardware
  activity := .idle
  outcome := none
  commands := .silent
  source := []
  arrivals := .silent
  line := .silent

/-- What stops the model with a fault of the model, not of the block (93_implementation_defined.md, `fault`). No state that
meets the invariant of Sys2Proof/Safety.lean reaches one. -/
inductive Fault where
  /-- Raised by Validate for a read of `BUF[i]` with `i >= LEN`, or of a cell with no value (R51). Safe. -/
  | bufferNoValue
  /-- Raised by the append actions when `Append` is reached with `LEN >= BUF_CAP` and the rules do not raise an error
  (R52). Safe. -/
  | appendPastCapacity
  /-- Raised by DETECT's loop for a read of `MIN` or `IDX` with no value (R29). Safe. -/
  | detectorNoValue
  deriving DecidableEq, Repr

/-- What the model refuses. -/
inductive Refusal where
  /-- Raised by `exec` for an instruction without a meaning; no arm does. Safe. -/
  | notModelled (mnemonic : String)
  /-- Raised by `step` for one of the 11 reserved command words: no state changes, no byte is read (R78). Safe. -/
  | reservedCommand (w : CmdWord)
  /-- Raised by `step` for a configuration with `BUF_CAP < 9` (R9). Safe. -/
  | illFormedConfig (bufCap : Nat)
  deriving DecidableEq, Repr

end Sys2Proof.Machine
end

