-- ==== Sys2Proof/Machine/Ops.lean ====
section
/-! DEFINITION. The shared operations: the feeds of the external agents, the buffer primitives `BufRead` and `Append`
(20_memory.md R51, R52), `finish` and the error entry (60_exceptions.md R209), and the two append actions
(42_framer_bytes.md R147, R148). -/

namespace Sys2Proof.Machine

/-- What a meaning answers. -/
abbrev Out := Host.Outcome State Fault Refusal

/-- What the agent does this turn; `d` where it has nothing more to do. -/
def Feed.head {α : Type} (d : α) (f : Feed α) : α :=
  match f.coming with
  | a :: _ => a
  | [] => f.repeating.headD d

/-- The feed after this turn. -/
def Feed.rest {α : Type} (f : Feed α) : Feed α :=
  match f.coming with
  | _ :: as => { f with coming := as }
  | [] => { f with coming := f.repeating.tail }

namespace State

/-- The transport's turn, before every step: it appends its bytes to the end of `Q` (R53). -/
def deliver (s : State) : State :=
  { s with source := s.source ++ s.arrivals.head [], arrivals := s.arrivals.rest }

/-- Cell `BUF[i]`: its 7-bit value, or no value (R27). -/
def cell (s : State) (i : Nat) : Option Val :=
  s.buf.getD i none

/-- `BufRead(i)`, defined only for `i < LEN` (R51). -/
def bufRead (s : State) (i : Nat) : Option Val :=
  if i < s.len then s.cell i else none

/-- `BUF[lo .. lo+n)`, each cell read by `BufRead`; none as soon as one read is not defined. -/
def bufSlice (s : State) (lo : Nat) : Nat → Option (List Val)
  | 0 => some []
  | n + 1 =>
    match s.bufRead lo, s.bufSlice (lo + 1) n with
    | some v, some vs => some (v :: vs)
    | _, _ => none

/-- The two writes of `Append(v)` (R52). -/
def pushed (v : Val) (s : State) : State :=
  { s with buf := s.buf.set s.len (some v), len := s.len + 1 }

/-- `Append(v)`: none where its precondition `LEN < BUF_CAP` does not hold (R52). -/
def append (v : Val) (s : State) : Option State :=
  if s.len < s.cfg.bufCap then some (s.pushed v) else none

/-- The command in progress ends with outcome `o` (R12). -/
def finished (o : CmdOutcome) (s : State) : State :=
  { s with activity := .idle, outcome := some o }

/-- The parser registers at their reset values (R130, R209). -/
def cleared (s : State) : State :=
  { s with parser := .afs, len := 0, split := splitNone, buf := List.replicate s.cfg.bufCap none }

/-- The state after the error entry: what taking an exception is on this block. It saves nothing and records only the code,
and there is no return from it (R209, R212). -/
def errored (k : ErrorKind) (s : State) : State :=
  s.cleared.finished (.error k)

end State

/-- `finish O` (R12). -/
def finish (o : CmdOutcome) (s : State) : Out :=
  .next (s.finished o)

/-- `raise Error(k)` for a decoder error, codes 1 to 7 (R209). -/
def raiseError (k : ErrorKind) (s : State) : Out :=
  .next (s.errored k)

/-- `TagAppend(v)` (R147). -/
def tagAppend (v : Val) (s : State) : Out :=
  if s.len = Config.tagCap then raiseError .tagTooLong s
  else
    match s.append v with
    | some t => .next t
    | none => .fault .appendPastCapacity

/-- `DataAppend(v)` (R148). -/
def dataAppend (v : Val) (s : State) : Out :=
  if s.len = s.cfg.bufCap then raiseError .datasetTooLong s
  else
    match s.append v with
    | some t => .next t
    | none => .fault .appendPastCapacity

end Sys2Proof.Machine
end

