-- ==== Sys2Proof/Machine/Command.lean ====
section
/-! DEFINITION. The commands (41_poll_and_reset.md R120, R130; 40_baud_detector.md R100 to R105). RESET and the two hinted
DETECTs end in the step that begins them. POLL and DETECT without a hint begin a transaction, which later steps carry on:
`pollTurn` and `detectTurn`. -/

namespace Sys2Proof.Machine

/-- RESET (R130). -/
def execReset (s : State) : Out :=
  finish .empty s.cleared

/-- POLL enters the drain loop (R121): from the next step on, each step is the loop's test and one byte step, `pollTurn` in
Machine/Fetch.lean. -/
def execPoll (s : State) : Out :=
  .next { s with activity := .polling }

/-- DETECT without a hint starts sampling: `MIN <- INF; IDX <- 0` (R100, R103). -/
def execDetect (s : State) : Out :=
  .next { s with activity := .detecting, min := some .inf, idx := some 0 }

/-- DETECT 1200: the hint is the rate, and the line is not read (R102). -/
def execDetect1200 (s : State) : Out :=
  finish (.rate .b1200) s

/-- DETECT 9600 (R102). -/
def execDetect9600 (s : State) : Out :=
  finish (.rate .b9600) s

/-- `min(MIN, d)` (R103). -/
def PulseMin.lower (d : Nat) : PulseMin → PulseMin
  | .inf => .us d
  | .us m => .us (Nat.min m d)

/-- A width lies in a closed window (R104). -/
def inWindow (window : Nat × Nat) (m : Nat) : Bool :=
  window.1 ≤ m && m ≤ window.2

/-- Classification of the minimum (R104, R105). `INF` lies in neither window. -/
def classify : PulseMin → CmdOutcome
  | .inf => .error .detectionFailed
  | .us m =>
    if inWindow Config.w1200 m then .rate .b1200
    else if inWindow Config.w9600 m then .rate .b9600
    else .error .detectionFailed

/-- DETECT ends with the classification of `MIN`. After it `MIN` and `IDX` hold no value (R29, 92_eei_decisions.md D16);
DetectionFailed does not go through the error entry (R208). -/
def classifyMin (m : PulseMin) (s : State) : Out :=
  finish (classify m) { s with min := none, idx := none }

/-- One `LineMeasureLow` of the loop (R103). While the line reader has not returned, DETECT waits (R107). -/
def sample (m : PulseMin) (k : Nat) (s : State) : Out :=
  match s.line.head none with
  | none => .next { s with line := s.line.rest }
  | some d => .next { s with line := s.line.rest, min := some (m.lower d), idx := some (k + 1) }

/-- One turn of a running DETECT: a sample while `IDX < N_SAMPLES`, then the classification (R100). -/
def detectTurn (s : State) : Out :=
  match s.min, s.idx with
  | some m, some k => if k < Config.nSamples then sample m k s else classifyMin m s
  | _, _ => .fault .detectorNoValue

end Sys2Proof.Machine
end

