-- ==== Sys2Proof/Machine/Validate.lean ====
section
/-! DEFINITION. `Validate`, the action of CR in `PD` (43_dataset_validation.md R170 to R178). -/

namespace Sys2Proof.Machine

/-- The checksum of a list of 7-bit values: their sum as naturals, low 6 bits, plus 0x20 (R174). -/
def checksum (vs : List Val) : Nat :=
  (vs.map BitVec.toNat).sum % 64 + 0x20

/-- How many buffered bytes the checksum covers, out of `n`: all but the last two under SPACE (R172), all but the last under
TAB (R173). -/
def checksumSpan (split : Val) (n : Nat) : Nat :=
  if split = Ascii.sp then n - 2 else n - 1

/-- The ascending list of the indices at which `vs` holds the active splitter (R175). -/
def splitterPositions (split : Val) (vs : List Val) : List Nat :=
  (List.range vs.length).filter fun i => vs[i]? == some split

/-- `vs[lo..hi)`, empty when `hi <= lo` (R10). -/
def between (lo hi : Nat) (vs : List Val) : List Val :=
  (vs.take hi).drop lo

/-- Success: the dataset is the outcome, the parser waits for the next one, the buffer stays as it is (R178). -/
def produce (tag data : List Val) (s : State) : Out :=
  finish (.produced tag data) { s with parser := .adfe }

/-- Field count and extraction over the buffered bytes before the checksum byte (R175, R176). -/
def extract (body : List Val) (s : State) : Out :=
  match splitterPositions s.split body with
  | [p0, p1] => produce (between 0 p0 body) (between (p0 + 1) p1 body) s
  | [p0, p1, p2] => produce (between 0 p0 body) (between (p1 + 1) p2 body) s
  | _ => raiseError .invalidFieldCount s

/-- The checksum test (R172 to R174), then the fields (R175, R176). -/
def checkAndExtract (s : State) : Out :=
  match s.bufRead (s.len - 1), s.bufSlice 0 (checksumSpan s.split s.len) with
  | some c, some covered =>
    if checksum covered = c.toNat then
      match s.bufSlice 0 (s.len - 1) with
      | some body => extract body s
      | none => .fault .bufferNoValue
    else raiseError .invalidChecksum s
  | _, _ => .fault .bufferNoValue

/-- `Validate()` (R170): the splitter check comes first (R171). -/
def validate (s : State) : Out :=
  if isSplitter s.split then checkAndExtract s else raiseError .invalidSplitter s

end Sys2Proof.Machine
end

