-- ==== Sys2Proof/Machine/RawByte.lean ====
section
/-! DEFINITION. The byte steps: the parity error and one rule per byte class over the four parser states
(41_poll_and_reset.md R122, 42_framer_bytes.md R141 to R146). The byte has already left the source (R121). -/

namespace Sys2Proof.Machine

/-- A parity-bad byte raises ParityError in every parser state (R122). Its bits have no other effect. -/
def execByteParityBad (_p : BitVec 1) (_d : Val) (s : State) : Out :=
  raiseError .parityError s

/-- STX (R141). -/
def execByteStx (s : State) : Out :=
  match s.parser with
  | .afs => .next { s with parser := .adfe, len := 0 }
  | .adfe => raiseError .unexpectedByte s
  | .pt => tagAppend Ascii.stx s
  | .pd => dataAppend Ascii.stx s

/-- ETX (R142). -/
def execByteEtx (s : State) : Out :=
  match s.parser with
  | .afs => .next s
  | .adfe => .next { s with parser := .afs }
  | .pt => tagAppend Ascii.etx s
  | .pd => dataAppend Ascii.etx s

/-- LF (R143). -/
def execByteLf (s : State) : Out :=
  match s.parser with
  | .afs => .next s
  | .adfe => .next { s with parser := .pt, len := 0 }
  | .pt => tagAppend Ascii.lf s
  | .pd => dataAppend Ascii.lf s

/-- CR (R144). -/
def execByteCr (s : State) : Out :=
  match s.parser with
  | .afs => .next s
  | .adfe => raiseError .unexpectedByte s
  | .pt => tagAppend Ascii.cr s
  | .pd => validate s

/-- The splitter step for TAB or SPACE (R146). -/
def splitterStep (v : Val) (s : State) : Out :=
  match s.parser with
  | .afs => .next s
  | .adfe => raiseError .unexpectedByte s
  | .pt =>
    match s.append v with
    | some t => .next { t with split := v, parser := .pd }
    | none => .fault .appendPastCapacity
  | .pd => dataAppend v s

/-- TAB (R146). -/
def execByteTab (s : State) : Out :=
  splitterStep Ascii.tab s

/-- SPACE (R146). -/
def execByteSp (s : State) : Out :=
  splitterStep Ascii.sp s

/-- Every other valid byte, with 7-bit value `d` (R145). -/
def execByteOther (_p : BitVec 1) (d : Val) (s : State) : Out :=
  match s.parser with
  | .afs => .next s
  | .adfe => raiseError .unexpectedByte s
  | .pt => tagAppend d s
  | .pd => dataAppend d s

end Sys2Proof.Machine
end

