-- ==== Sys2Proof/Syntax.lean ====
section
/-! DEFINITION. What the block executes (00_scope.md R3): the byte classes the framer consumes and the commands the host
issues, one constructor per row of spec/opcode_table.json. -/

namespace Sys2Proof

/-- One constructor per row of the opcode table. The two rows that fix no bit carry the row's fields `p` (bit 7) and `d`
(bits 6..0); every other row has no field. -/
inductive Instr where
  /-- A raw byte with an even number of set bits (R122). -/
  | byteParityBad (p : BitVec 1) (d : Val)
  /-- STX, 0x02 (R141). -/
  | byteStx
  /-- ETX, 0x03 (R142). -/
  | byteEtx
  /-- LF, 0x0A (R143). -/
  | byteLf
  /-- CR, 0x0D (R144). -/
  | byteCr
  /-- TAB, 0x09, the splitter of the standard variant (R146). -/
  | byteTab
  /-- SPACE, 0x20, the splitter of the historic variant (R146). -/
  | byteSp
  /-- Every other valid byte (R145). -/
  | byteOther (p : BitVec 1) (d : Val)
  /-- RESET (R130). -/
  | reset
  /-- POLL (R120). -/
  | poll
  /-- DETECT without a rate hint (R100). -/
  | detect
  /-- DETECT with the hint 1200 baud (R102). -/
  | detect1200
  /-- DETECT with the hint 9600 baud (R102). -/
  | detect9600
  deriving DecidableEq, Repr

end Sys2Proof
end

