-- ==== Sys2Proof/Machine/Dispatch.lean ====
section
/-! DEFINITION. The meaning of every instruction, one arm per row of spec/opcode_table.json. -/

namespace Sys2Proof.Machine

def exec (i : Instr) (s : State) : Host.Outcome State Fault Refusal :=
  match i with
  -- the byte classes (R122, R141 to R146)
  | .byteParityBad p d => Sys2Proof.Machine.execByteParityBad p d s
  | .byteStx => Sys2Proof.Machine.execByteStx s
  | .byteEtx => Sys2Proof.Machine.execByteEtx s
  | .byteLf => Sys2Proof.Machine.execByteLf s
  | .byteCr => Sys2Proof.Machine.execByteCr s
  | .byteTab => Sys2Proof.Machine.execByteTab s
  | .byteSp => Sys2Proof.Machine.execByteSp s
  | .byteOther p d => Sys2Proof.Machine.execByteOther p d s
  -- the commands (R100, R102, R120, R130)
  | .reset => Sys2Proof.Machine.execReset s
  | .poll => Sys2Proof.Machine.execPoll s
  | .detect => Sys2Proof.Machine.execDetect s
  | .detect1200 => Sys2Proof.Machine.execDetect1200 s
  | .detect9600 => Sys2Proof.Machine.execDetect9600 s

end Sys2Proof.Machine
end

