-- ==== Sys2Proof/WellFormed.lean ====
section
/-! DEFINITION. Which terms of `Instr` stand for a word of the block: the conditions of the opcode table's two rows with
fields (30_encoding.md R71, R75). -/

namespace Sys2Proof

/-- The row's condition: a parity-bad byte has an even number of set bits; an OTHER byte has an odd number and none of the
six named values. -/
def Instr.wellFormed : Instr → Bool
  | .byteParityBad p d => decide (Machine.parityBad (Machine.joinRaw p d))
  | .byteOther p d => decide (¬ Machine.parityBad (Machine.joinRaw p d) ∧ ¬ Machine.isNamed d)
  | .byteStx | .byteEtx | .byteLf | .byteCr | .byteTab | .byteSp => true
  | .reset | .poll | .detect | .detect1200 | .detect9600 => true

end Sys2Proof
end

