-- ==== Sys2Proof/Decode.lean ====
section
/-! DEFINITION. Decoding of the block's two ports, raw bytes (30_encoding.md R70 to R75) and command words (R77, R78), and
the encoder from the same tables. -/

namespace Sys2Proof

open Machine (parityBit strip joinRaw parityBad)

/-- What decoding a word answers: an instruction, or a rejection by name. -/
inductive Decoded where
  | instr (i : Instr)
  /-- One of the 11 command words with no meaning (R78). -/
  | reservedCommand (w : CmdWord)
  deriving DecidableEq, Repr

/-- The class of a raw byte: parity first (R71), then the value of the stripped byte in the order of `ByteStep` (R140).
Every raw byte has a class, so nothing is rejected (R75). -/
def decodeByte (r : Raw) : Instr :=
  if parityBad r then .byteParityBad (parityBit r) (strip r)
  else if strip r = Ascii.stx then .byteStx
  else if strip r = Ascii.etx then .byteEtx
  else if strip r = Ascii.lf then .byteLf
  else if strip r = Ascii.cr then .byteCr
  else if strip r = Ascii.tab then .byteTab
  else if strip r = Ascii.sp then .byteSp
  else .byteOther (parityBit r) (strip r)

/-- Field `CMD` of a command word (R77). -/
def cmdField (w : CmdWord) : BitVec 2 := w.extractLsb' 0 2

/-- Field `HINT` of a command word (R77). -/
def hintField (w : CmdWord) : BitVec 2 := w.extractLsb' 2 2

/-- Command decoding, total on all 16 words (R78). -/
def decodeCommand (w : CmdWord) : Decoded :=
  if cmdField w = 0#2 ∧ hintField w = 0#2 then .instr .reset
  else if cmdField w = 1#2 ∧ hintField w = 0#2 then .instr .poll
  else if cmdField w = 2#2 ∧ hintField w = 0#2 then .instr .detect
  else if cmdField w = 2#2 ∧ hintField w = 1#2 then .instr .detect1200
  else if cmdField w = 2#2 ∧ hintField w = 2#2 then .instr .detect9600
  else .reservedCommand w

/-- Decoding of a word of either port. -/
def decode : InWord → Decoded
  | .raw r => .instr (decodeByte r)
  | .command w => decodeCommand w

/-- The word of an instruction, from the match values of spec/opcode_table.json (R75, R77). -/
def encode : Instr → InWord
  | .byteParityBad p d => .raw (joinRaw p d)
  | .byteStx => .raw 0x02#8
  | .byteEtx => .raw 0x83#8
  | .byteLf => .raw 0x8A#8
  | .byteCr => .raw 0x0D#8
  | .byteTab => .raw 0x89#8
  | .byteSp => .raw 0x20#8
  | .byteOther p d => .raw (joinRaw p d)
  | .reset => .command 0x0#4
  | .poll => .command 0x1#4
  | .detect => .command 0x2#4
  | .detect1200 => .command 0x6#4
  | .detect9600 => .command 0xA#4

/-- The spelling of a command (R83). -/
def commandWord : String → Option CmdWord
  | "RESET" => some 0x0#4
  | "POLL" => some 0x1#4
  | "DETECT" => some 0x2#4
  | "DETECT 1200" => some 0x6#4
  | "DETECT 9600" => some 0xA#4
  | _ => none

/-- Which port a word of the opcode table stands for, when only its number and its width in whole bytes are given. Fewer
than 8 bits can only be a command word. In 8 bits a number below 16 may be either: it is read as the command word when it
is one of the five the block accepts, since the block takes a command before it takes any byte, and as a raw byte otherwise.
DESIGN CHOICE (notes/assumptions/12.md): the two formats overlap on the numbers 0x0, 0x1, 0x2, 0x6 and 0xA. -/
def tableWord (nbits w : Nat) : InWord :=
  if nbits < 8 then .command (BitVec.ofNat 4 w)
  else if w < 16 then
    match decodeCommand (BitVec.ofNat 4 w) with
    | .instr _ => .command (BitVec.ofNat 4 w)
    | .reservedCommand _ => .raw (BitVec.ofNat 8 w)
  else .raw (BitVec.ofNat 8 w)

/-- The instruction the decoder reads from a word of the opcode table; none where it refuses. -/
def decodeTableWord (nbits w : Nat) : Option Instr :=
  match decode (tableWord nbits w) with
  | .instr i => some i
  | .reservedCommand _ => none

end Sys2Proof
end

