-- ==== Sys2Proof/Machine/Fetch.lean ====
section
/-! DEFINITION. What a step does around an instruction: the host's command when the block is idle (20_memory.md R58), the
drain loop of POLL (41_poll_and_reset.md R121), the sampling loop of DETECT (40_baud_detector.md R100). -/

namespace Sys2Proof.Machine

/-- What a turn comes to: an instruction to execute in a state, or an end already reached. -/
inductive Turn where
  | run (i : Instr) (s : State)
  | settled (o : Out)

/-- An idle block takes the next command of the host, if there is one. The outcome of the command before it is gone (R237).
A reserved word is refused (R78). -/
def idleTurn (s : State) : Turn :=
  match s.commands.head none with
  | none => .settled (.next { s with commands := s.commands.rest })
  | some w =>
    match decodeCommand w with
    | .instr i => .run i { s with commands := s.commands.rest, outcome := none }
    | .reservedCommand w => .settled (.refused (.reservedCommand w))

/-- The head of the drain loop: EMPTY when the source has no byte (R125), else one byte leaves the source and its class is
executed (R121). -/
def pollTurn (s : State) : Turn :=
  match s.source with
  | [] => .settled (finish .empty s)
  | r :: q => .run (decodeByte r) { s with source := q }

/-- One turn: the transport first (R53), then the transaction in progress. -/
def turn (s : State) : Turn :=
  match s.activity with
  | .idle => idleTurn s.deliver
  | .polling => pollTurn s.deliver
  | .detecting => .settled (detectTurn s.deliver)

/-- The state in which the next step fetches this word: a command word stands first in an idle block's commands, a raw byte
first in the source of a block that polls. -/
def State.withInWord (s : State) : InWord → State
  | .command w => { s with activity := .idle, commands := { s.commands with coming := some w :: s.commands.coming } }
  | .raw r => { s with activity := .polling, source := r :: s.source }

end Sys2Proof.Machine
end

