-- ==== Sys2Proof/Machine/Step.lean ====
section
/-! DEFINITION. One step of the machine: the transport's turn, then one command, one byte step, one sample, or a wait. -/

namespace Sys2Proof.Machine

/-- One step. An ill-formed configuration is refused (00_scope.md R9). -/
def step (s : State) : Host.Outcome State Fault Refusal :=
  if s.cfg.wf then
    match turn s with
    | .run i t => exec i t
    | .settled o => o
  else .refused (.illFormedConfig s.cfg.bufCap)

/-- `s` with the word of the opcode table where the next step fetches: as the host's next command, or as the first byte in
the source of a running POLL (see `tableWord` for which of the two). -/
def State.withFetchWord (s : State) (nbits w : Nat) : State :=
  s.withInWord (tableWord nbits w)

end Sys2Proof.Machine
end

