-- ==== Sys2Proof/Machine/Flags.lean ====
section
/-! DEFINITION. The block has no flags (10_state.md R31). What a host reads instead is the outcome record: its fields, widths
and codes (30_encoding.md R80, 60_exceptions.md R200). -/

namespace Sys2Proof.Machine

/-- The code of a parser state in the 2-bit register `STATE` (R24). -/
def ParserState.code : ParserState → BitVec 2
  | .afs => 0#2
  | .adfe => 1#2
  | .pt => 2#2
  | .pd => 3#2

/-- The `ERR` code of an error kind (R200). -/
def ErrorKind.code : ErrorKind → BitVec 4
  | .parityError => 1#4
  | .unexpectedByte => 2#4
  | .tagTooLong => 3#4
  | .datasetTooLong => 4#4
  | .invalidChecksum => 5#4
  | .invalidSplitter => 6#4
  | .invalidFieldCount => 7#4
  | .detectionFailed => 8#4

/-- The `RATE` bit of a baud rate (R80). -/
def BaudRate.code : BaudRate → BitVec 1
  | .b1200 => 0#1
  | .b9600 => 1#1

/-- The outcome record (R80). A field that is not meaningful for the `KIND` holds no value (92_eei_decisions.md D24). -/
structure OutcomeRecord where
  kind : BitVec 2
  err : Option (BitVec 4)
  rate : Option (BitVec 1)
  tagLen : Option (BitVec 4)
  tag : Option (List Val)
  dataLen : Option (BitVec 6)
  data : Option (List Val)
  deriving DecidableEq, Repr

/-- The record of an outcome (R80). -/
def outcomeRecord : CmdOutcome → OutcomeRecord
  | .empty => ⟨0#2, none, none, none, none, none, none⟩
  | .produced tag data =>
    ⟨1#2, none, none, some (BitVec.ofNat 4 tag.length), some tag, some (BitVec.ofNat 6 data.length), some data⟩
  | .error k => ⟨2#2, some k.code, none, none, none, none, none⟩
  | .rate r => ⟨3#2, none, some r.code, none, none, none, none⟩

end Sys2Proof.Machine
end

