-- ==== Sys2Proof/Machine/Stream.lean ====
section
/-! DEFINITION. The byte streams in which the spec writes datasets and frames (30_encoding.md R84, R85). -/

namespace Sys2Proof.Machine

/-- A stream of 7-bit values as the byte source delivers it, parity inserted (R84). -/
def rawStream (vs : List Val) : List Raw :=
  vs.map validRaw

/-- The checksum byte that belongs behind the buffered bytes `fields` (R85, R172 to R174). -/
def checksumByte (split : Val) (fields : List Val) : Val :=
  BitVec.ofNat 7 (checksum (fields.take (checksumSpan split (fields.length + 1))))

/-- What the buffer holds of a 2-field dataset before the checksum byte (R85). -/
def fields2 (tag : List Val) (split : Val) (data : List Val) : List Val :=
  tag ++ split :: (data ++ [split])

/-- What the buffer holds of a 3-field dataset before the checksum byte (R85). -/
def fields3 (tag : List Val) (split : Val) (timestamp data : List Val) : List Val :=
  tag ++ split :: (timestamp ++ split :: (data ++ [split]))

/-- LF, the buffered bytes, their checksum byte, CR (R85). -/
def dataset (split : Val) (fields : List Val) : List Val :=
  Ascii.lf :: (fields ++ [checksumByte split fields, Ascii.cr])

/-- `DS(tag, s, data)` (R85). -/
def ds (tag : List Val) (split : Val) (data : List Val) : List Val :=
  dataset split (fields2 tag split data)

/-- `DS3(tag, s, ts, data)` (R85). -/
def ds3 (tag : List Val) (split : Val) (timestamp data : List Val) : List Val :=
  dataset split (fields3 tag split timestamp data)

/-- `FRAME(x1, ..., xn)` (R85). -/
def frame (datasets : List (List Val)) : List Val :=
  Ascii.stx :: (datasets.flatten ++ [Ascii.etx])

end Sys2Proof.Machine
end

