-- ==== Sys2Proof/Safety.lean ====
section
/-! DEFINITION. What counts as a sound state, and the terms the statements use: the invariant of 10_state.md R32, runs of
several steps, and the two states that most rules lead to, written out from the spec. -/

namespace Sys2Proof.Machine

/-- `k` steps of the machine, stopping at the first fault or refusal (`run_eq_core_run` in Sys2Proof/Laws/Ops.lean: the
host's own run). -/
def run : Nat → State → Out
  | 0, s => .next s
  | k + 1, s =>
    match step s with
    | .next t => run k t
    | .fault r => .fault r
    | .refused r => .refused r

/-- The byte classes, as against the commands (00_scope.md R3). -/
def isByte : Instr → Bool
  | .byteParityBad _ _ | .byteStx | .byteEtx | .byteLf | .byteCr | .byteTab | .byteSp | .byteOther _ _ => true
  | .reset | .poll | .detect | .detect1200 | .detect9600 => false

namespace State

/-- The valid bytes of the buffer are `vs`, in arrival order (R27, R28). -/
abbrev Holds (s : State) (vs : List Val) : Prop :=
  s.len = vs.length ∧ s.buf.take s.len = vs.map some

/-- `c` is the checksum byte that belongs behind the buffered bytes `body`: under SPACE the sum leaves out the last of them,
under TAB it does not (43_dataset_validation.md R172 to R174). -/
abbrev ChecksumRight (s : State) (body : List Val) (c : Val) : Prop :=
  s.split = 0x20#7 ∧ (body.dropLast.map BitVec.toNat).sum % 64 + 0x20 = c.toNat ∨
    s.split = 0x09#7 ∧ (body.map BitVec.toNat).sum % 64 + 0x20 = c.toNat

/-- No byte of `BUF[0..n)` is TAB or SPACE (R32). -/
abbrev NoSplitterBelow (s : State) (n : Nat) : Prop :=
  ∀ i, i < n → s.cell i ≠ some Ascii.tab ∧ s.cell i ≠ some Ascii.sp

/-- The buffer has its `BUF_CAP` cells, `LEN` is at most that, and every cell below `LEN` holds a value (R25, R27, R32 a). -/
abbrev BufferOk (s : State) : Prop :=
  s.buf.length = s.cfg.bufCap ∧ s.len ≤ s.cfg.bufCap ∧ ∀ i, i < s.len → s.cell i ≠ none

/-- `SPLIT` holds NONE, TAB or SPACE (R26). -/
abbrev SplitOk (s : State) : Prop :=
  s.split = splitNone ∨ isSplitter s.split

/-- R32 (b). -/
abbrev TagOk (s : State) : Prop :=
  s.parser = .pt → s.len ≤ Config.tagCap ∧ s.NoSplitterBelow s.len

/-- R32 (c): the tag length `t` is where the active splitter stands. -/
abbrev DataOk (s : State) : Prop :=
  s.parser = .pd → isSplitter s.split ∧ 1 ≤ s.len ∧
    ∃ t, t ≤ Config.tagCap ∧ t < s.len ∧ s.cell t = some s.split ∧ s.NoSplitterBelow t

/-- `MIN` and `IDX` hold values while DETECT runs, at most `N_SAMPLES` samples are counted, and `MIN` is `INF` before the
first one; outside a running DETECT they hold no value (R29, 92_eei_decisions.md D16). -/
abbrev DetectorOk (s : State) : Prop :=
  (s.activity = .detecting →
    s.min ≠ none ∧ s.idx ≠ none ∧ s.idx.getD 0 ≤ Config.nSamples ∧ (s.min = some .inf ↔ s.idx = some 0)) ∧
  (s.activity ≠ .detecting → s.min = none ∧ s.idx = none)

/-- While a transaction runs, the outcome of the command before it is gone (R237). -/
abbrev OutcomeOk (s : State) : Prop :=
  s.activity ≠ .idle → s.outcome = none

/-- The invariant between steps (R32), with the configuration's bound (R9). -/
structure Inv (s : State) : Prop where
  config : s.cfg.wf
  buffer : s.BufferOk
  split : s.SplitOk
  tag : s.TagOk
  data : s.DataOk
  detector : s.DetectorOk
  outcome : s.OutcomeOk

/-- The four parser registers are the same in both states. -/
abbrev SameParser (s t : State) : Prop :=
  t.parser = s.parser ∧ t.len = s.len ∧ t.split = s.split ∧ t.buf = s.buf

/-- The state the error entry leaves, register by register (60_exceptions.md R209). -/
abbrev afterError (k : ErrorKind) (s : State) : State :=
  { s with
    parser := .afs, len := 0, split := 0x00#7, buf := List.replicate s.cfg.bufCap none
    activity := .idle, outcome := some (.error k) }

/-- The state after `v` is stored at the end of the buffer (20_memory.md R52). -/
abbrev afterAppend (v : Val) (s : State) : State :=
  { s with buf := s.buf.set s.len (some v), len := s.len + 1 }

/-- The state after a dataset is produced (43_dataset_validation.md R178). -/
abbrev afterProduced (tag data : List Val) (s : State) : State :=
  { s with parser := .adfe, activity := .idle, outcome := some (.produced tag data) }

/-- The state after the transport's turn (20_memory.md R53). -/
abbrev afterArrivals (s : State) : State :=
  { s with source := s.source ++ s.arrivals.head [], arrivals := s.arrivals.rest }

end State

end Sys2Proof.Machine
end

