-- ==== Sys2Proof/Certificates/Slice0/Obligations.lean ====
section
/-! DEFINITION. The statements for the provers: what each numbered rule of the spec says an instruction or the machine does. -/

open Sys2Proof Sys2Proof.Machine

/-! ## Encoding -/

/-- Every well-formed instruction is read back from its word, with every value of its fields (30_encoding.md R70 to R78).
-/
def Obligations.DecodeOfEncodeIsIdentity : Prop :=
  ∀ i : Instr, i.wellFormed = true → decode (encode i) = .instr i

/-- Every word of either port that decodes to an instruction is that instruction's one word, and the instruction is
well-formed (30_encoding.md R70 to R78). -/
def Obligations.EncodeOfDecodeIsIdentity : Prop :=
  ∀ (w : InWord) (i : Instr), decode w = .instr i → i.wellFormed = true ∧ encode i = w

/-- Words written out from the spec's tables: R75 and R77, with one parity-bad and one OTHER byte. -/
def Obligations.TableWordsDecodeToTheirRows : Prop :=
  decode (.raw 0b10000010#8) = .instr (.byteParityBad 1#1 0b0000010#7) ∧
  decode (.raw 0b00000010#8) = .instr .byteStx ∧
  decode (.raw 0b10000011#8) = .instr .byteEtx ∧
  decode (.raw 0b10001010#8) = .instr .byteLf ∧
  decode (.raw 0b00001101#8) = .instr .byteCr ∧
  decode (.raw 0b10001001#8) = .instr .byteTab ∧
  decode (.raw 0b00100000#8) = .instr .byteSp ∧
  decode (.raw 0b11000001#8) = .instr (.byteOther 1#1 0b1000001#7) ∧
  decode (.command 0b0000#4) = .instr .reset ∧
  decode (.command 0b0001#4) = .instr .poll ∧
  decode (.command 0b0010#4) = .instr .detect ∧
  decode (.command 0b0110#4) = .instr .detect1200 ∧
  decode (.command 0b1010#4) = .instr .detect9600

/-- R74, which the spec marks as derived from R71 and R72: each 7-bit value has exactly one valid raw byte, made by
setting the parity bit when the value has an even number of set bits; a raw byte is parity-bad exactly when it is none of
these, and 128 of the 256 are valid. -/
def Obligations.EachValueHasOneValidRawByte : Prop :=
  (∀ v : Val, validRaw v = (if popcount v % 2 = 0 then 1#1 else 0#1) ++ v ∧
    ∀ r : Raw, (strip r = v ∧ popcount r % 2 = 1) ↔ r = validRaw v) ∧
  (∀ r : Raw, popcount r % 2 = 0 ↔ ∀ v, r ≠ validRaw v) ∧
  ((List.range 256).filter fun n => popcount (BitVec.ofNat 8 n) % 2 = 1).length = 128

/-- R75, which the spec marks as derived from R71 and R74: the class of every raw byte, by its parity and its 7-bit value.
-/
def Obligations.ByteClassFollowsParityAndValue : Prop :=
  ∀ r : Raw,
    (popcount r % 2 = 0 → decodeByte r = .byteParityBad (r.extractLsb' 7 1) (r.extractLsb' 0 7)) ∧
    (popcount r % 2 = 1 →
      (strip r = 0x02#7 → decodeByte r = .byteStx) ∧
      (strip r = 0x03#7 → decodeByte r = .byteEtx) ∧
      (strip r = 0x0A#7 → decodeByte r = .byteLf) ∧
      (strip r = 0x0D#7 → decodeByte r = .byteCr) ∧
      (strip r = 0x09#7 → decodeByte r = .byteTab) ∧
      (strip r = 0x20#7 → decodeByte r = .byteSp) ∧
      (strip r ∉ [0x02#7, 0x03#7, 0x09#7, 0x0A#7, 0x0D#7, 0x20#7] →
        decodeByte r = .byteOther (r.extractLsb' 7 1) (r.extractLsb' 0 7)))

/-- R78, with the words' layout (92_eei_decisions.md D2) and the refusal (D18) the spec decided: command decoding on all
16 words, through the fields `CMD = w[1:0]` and `HINT = w[3:2]`; a step that meets one of the 11 reserved words refuses it
by name, and a refusal has no next state. -/
def Obligations.CommandDecodingIsTotal : Prop :=
  (∀ cmd hint : BitVec 2,
    decodeCommand (hint ++ cmd) =
      if cmd = 0#2 ∧ hint = 0#2 then .instr .reset
      else if cmd = 1#2 ∧ hint = 0#2 then .instr .poll
      else if cmd = 2#2 ∧ hint = 0#2 then .instr .detect
      else if cmd = 2#2 ∧ hint = 1#2 then .instr .detect1200
      else if cmd = 2#2 ∧ hint = 2#2 then .instr .detect9600
      else .reservedCommand (hint ++ cmd)) ∧
  ∀ (s : State) (w : CmdWord),
    s.cfg.wf → s.activity = .idle → s.commands.head none = some w →
    w ∈ [0x3#4, 0x4#4, 0x5#4, 0x7#4, 0x8#4, 0x9#4, 0xB#4, 0xC#4, 0xD#4, 0xE#4, 0xF#4] →
    step s = .refused (.reservedCommand w)

/-- The record fields and codes of every outcome (R80, R200): `KIND`, `ERR`, `RATE`, and the lengths of a dataset whose
fields fit the record. -/
def Obligations.OutcomeRecordCodes : Prop :=
  outcomeRecord .empty = ⟨0#2, none, none, none, none, none, none⟩ ∧
  (∀ tag data : List Val, tag.length ≤ 8 → data.length ≤ 34 → ∃ tl dl,
    outcomeRecord (.produced tag data) = ⟨1#2, none, none, some tl, some tag, some dl, some data⟩ ∧
    tl.toNat = tag.length ∧ dl.toNat = data.length) ∧
  (∀ k : ErrorKind, ∃ c, outcomeRecord (.error k) = ⟨2#2, some c, none, none, none, none, none⟩ ∧
    c = match k with
      | .parityError => 1#4
      | .unexpectedByte => 2#4
      | .tagTooLong => 3#4
      | .datasetTooLong => 4#4
      | .invalidChecksum => 5#4
      | .invalidSplitter => 6#4
      | .invalidFieldCount => 7#4
      | .detectionFailed => 8#4) ∧
  outcomeRecord (.rate .b1200) = ⟨3#2, none, some 0#1, none, none, none, none⟩ ∧
  outcomeRecord (.rate .b9600) = ⟨3#2, none, some 1#1, none, none, none, none⟩

/-! ## What one step runs -/

/-- A step of an idle block runs the host's next command, after the transport's turn; the outcome before it is gone
(20_memory.md R58, R53; 70_reset_and_hazards.md R237). Where the turn stands and how long an outcome stays are the model's
choices: notes/assumptions/4.md and 8.md. -/
def Obligations.StepRunsTheDecodedCommand : Prop :=
  ∀ (s : State) (w : CmdWord) (i : Instr),
    s.cfg.wf → s.activity = .idle → s.commands.head none = some w → decode (.command w) = .instr i →
    step s = exec i { s.afterArrivals with commands := s.commands.rest, outcome := none }

/-- A step of a polling block whose source is not empty takes the head byte out and runs its class (41_poll_and_reset.md
R121). One byte a step, after the transport's turn: the model's choices notes/assumptions/1.md and 4.md. -/
def Obligations.StepRunsTheDecodedByte : Prop :=
  ∀ (s : State) (r : Raw) (q : List Raw),
    s.cfg.wf → s.activity = .polling → s.source ++ s.arrivals.head [] = r :: q →
    ∃ i, decode (.raw r) = .instr i ∧ step s = exec i { s.afterArrivals with source := q }

/-- When the source has no byte, POLL ends with EMPTY and leaves the parser as it is (R125, R127). That finding the source
empty is a step of its own, after the transport's turn, is the model's choice: notes/assumptions/1.md and 4.md. -/
def Obligations.PollOfEmptySourceReturnsEmpty : Prop :=
  ∀ s : State, s.cfg.wf → s.activity = .polling → s.source ++ s.arrivals.head [] = [] →
    step s = .next { s.afterArrivals with activity := .idle, outcome := some .empty }

/-- An idle block without a command waits, and only the transport moves (20_memory.md R53). That waiting is a step is the
model's choice: notes/assumptions/2.md. -/
def Obligations.IdleBlockWaitsForACommand : Prop :=
  ∀ s : State, s.cfg.wf → s.activity = .idle → s.commands.head none = none →
    step s = .next { s.afterArrivals with commands := s.commands.rest }

/-- R9, which the spec marks as derived from R146 and R8: a configuration with `BUF_CAP < 9` is refused. -/
def Obligations.SmallBufferIsRefused : Prop :=
  ∀ s : State, s.cfg.bufCap < 9 → step s = .refused (.illFormedConfig s.cfg.bufCap)

/-! ## Commands -/

/-- R130: RESET clears the parser, touches nothing else, and returns EMPTY (an outcome the spec decided,
92_eei_decisions.md D3). -/
def Obligations.ResetClearsTheParser : Prop :=
  decode (.command 0x0#4) = .instr .reset ∧
  ∀ s : State, exec .reset s =
    .next { s with
      parser := .afs, len := 0, split := 0x00#7, buf := List.replicate s.cfg.bufCap none
      activity := .idle, outcome := some .empty }

/-- R102: a hinted DETECT returns the hint at once; it reads no line and writes neither `MIN` nor `IDX`. -/
def Obligations.HintedDetectReturnsTheHint : Prop :=
  ∀ s : State,
    exec .detect1200 s = .next { s with activity := .idle, outcome := some (.rate .b1200) } ∧
    exec .detect9600 s = .next { s with activity := .idle, outcome := some (.rate .b9600) }

/-- POLL enters its drain loop (R121) and DETECT without a hint its sampling loop, with `MIN = INF` and `IDX = 0` (R103);
neither changes anything else. How each of the two goes on and ends, other statements say. That they begin in a step of
their own is the model's choice: notes/assumptions/1.md. -/
def Obligations.PollAndDetectBegin : Prop :=
  ∀ s : State,
    exec .poll s = .next { s with activity := .polling } ∧
    exec .detect s = .next { s with activity := .detecting, min := some .inf, idx := some 0 }

/-- R103: a sample lowers `MIN` to the width measured and counts up `IDX`. One sample a step: the model's choice
notes/assumptions/1.md. -/
def Obligations.DetectTakesASample : Prop :=
  ∀ (s : State) (m : PulseMin) (k d : Nat),
    s.cfg.wf → s.activity = .detecting → s.min = some m → s.idx = some k → k < 10 → s.line.head none = some d →
    step s = .next { s.afterArrivals with
      line := s.line.rest
      min := some (match m with | .inf => .us d | .us n => .us (if n ≤ d then n else d))
      idx := some (k + 1) }

/-- R107: while the line reader has not returned, DETECT waits, with no outcome and no command taken. That waiting is a
step is the model's choice: notes/assumptions/1.md. -/
def Obligations.DetectWaitsForTheLine : Prop :=
  ∀ (s : State) (m : PulseMin) (k : Nat),
    s.cfg.wf → s.activity = .detecting → s.min = some m → s.idx = some k → k < 10 → s.line.head none = none →
    step s = .next { s.afterArrivals with line := s.line.rest }

/-- After the tenth sample the minimum is classified by two windows (R104), closed as the spec decided
(92_eei_decisions.md D14); DetectionFailed leaves the parser alone (R105). That the classification is a step of its own,
after the transport's turn, is the model's choice: notes/assumptions/1.md and 4.md. That `MIN` and `IDX` then hold no
value is deduced from D16: notes/assumptions/5.md. -/
def Obligations.DetectClassifiesTheMinimum : Prop :=
  ∀ (s : State) (m : Nat),
    s.cfg.wf → s.activity = .detecting → s.min = some (.us m) → s.idx = some 10 →
    ∃ o, step s = .next { s.afterArrivals with activity := .idle, min := none, idx := none, outcome := some o } ∧
      (666 ≤ m ∧ m ≤ 1000 → o = .rate .b1200) ∧
      (83 ≤ m ∧ m ≤ 125 → o = .rate .b9600) ∧
      (¬ (666 ≤ m ∧ m ≤ 1000) → ¬ (83 ≤ m ∧ m ≤ 125) → o = .error .detectionFailed)

/-- A whole DETECT (R100): from an idle block, with ten pulses to come, it ends after the command's step, ten samples and
the classification, with the outcome of the smallest width. Order, ties and the other widths do not matter (R108),
whatever the transport does meanwhile. The number of steps is the model's choice: notes/assumptions/1.md.
`DetectWithWaitsClassifiesTheSmallest` lets the line reader keep DETECT waiting between the pulses. -/
def Obligations.DetectOfTenPulsesClassifiesTheSmallest : Prop :=
  ∀ (s : State) (widths : List Nat) (later : List (Option Nat)) (cs : List (Option CmdWord)) (m : Nat),
    s.cfg.wf → s.activity = .idle → s.commands.coming = some 0x2#4 :: cs →
    widths.length = 10 → s.line.coming = widths.map some ++ later →
    m ∈ widths → (∀ d ∈ widths, m ≤ d) →
    ∃ t, run 12 s = .next t ∧ t.activity = .idle ∧ s.SameParser t ∧ t.min = none ∧ t.idx = none ∧
      t.commands.coming = cs ∧ t.line.coming = later ∧
      t.outcome = some (
        if 666 ≤ m ∧ m ≤ 1000 then .rate .b1200
        else if 83 ≤ m ∧ m ≤ 125 then .rate .b9600
        else .error .detectionFailed)

/-- R240 (a): a DETECT whose line reader never returns never ends, and takes no command. A line that never returns is the
silent feed of notes/assumptions/3.md. -/
def Obligations.DetectOnASilentLineNeverEnds : Prop :=
  ∀ (s : State) (m : PulseMin) (k : Nat),
    s.cfg.wf → s.activity = .detecting → s.min = some m → s.idx = some k → k < 10 → s.line = .silent →
    ∀ n, ∃ t, run n s = .next t ∧ t.activity = .detecting ∧ t.outcome = s.outcome ∧ t.commands = s.commands

/-- R106: DETECT, in every step of it, leaves `STATE`, `LEN`, `SPLIT` and `BUF` as they are and takes no byte out of the
source. -/
def Obligations.DetectLeavesParserAndSourceAlone : Prop :=
  (∀ s t : State, s.activity = .detecting → step s = .next t →
    s.SameParser t ∧ t.source = s.source ++ s.arrivals.head []) ∧
  (∀ (s t : State) (i : Instr), i ∈ [Instr.detect, .detect1200, .detect9600] → exec i s = .next t →
    s.SameParser t ∧ t.source = s.source)

/-! ## Byte steps -/

/-- A parity-bad byte at the head of the source ends POLL with ParityError through the error entry, in every parser state
(R122); the byte is consumed (92_eei_decisions.md D13) and the bytes behind it stay. One byte a step, after the
transport's turn: the model's choices notes/assumptions/1.md and 4.md. -/
def Obligations.ParityBadByteEndsPoll : Prop :=
  (∀ (p : BitVec 1) (d : Val) (s : State), exec (.byteParityBad p d) s = .next (s.afterError .parityError)) ∧
  ∀ (s : State) (r : Raw) (q : List Raw),
    s.cfg.wf → s.activity = .polling → s.source ++ s.arrivals.head [] = r :: q → popcount r % 2 = 0 →
    step s = .next ({ s.afterArrivals with source := q }.afterError .parityError)

/-- R141, with the append actions R147 and R148 for its value. That STX clears `LEN` is the spec's decision D10. -/
def Obligations.StxStep : Prop :=
  decode (.raw 0x02#8) = .instr .byteStx ∧
  ∀ s : State, s.cfg.wf →
    (s.parser = .afs → exec .byteStx s = .next { s with parser := .adfe, len := 0 }) ∧
    (s.parser = .adfe → exec .byteStx s = .next (s.afterError .unexpectedByte)) ∧
    (s.parser = .pt → s.len = 8 → exec .byteStx s = .next (s.afterError .tagTooLong)) ∧
    (s.parser = .pt → s.len < 8 → exec .byteStx s = .next (s.afterAppend 0x02#7)) ∧
    (s.parser = .pd → s.len = s.cfg.bufCap → exec .byteStx s = .next (s.afterError .datasetTooLong)) ∧
    (s.parser = .pd → s.len < s.cfg.bufCap → exec .byteStx s = .next (s.afterAppend 0x02#7))

/-- R142, with the append actions R147 and R148 for its value. -/
def Obligations.EtxStep : Prop :=
  decode (.raw 0x83#8) = .instr .byteEtx ∧
  ∀ s : State, s.cfg.wf →
    (s.parser = .afs → exec .byteEtx s = .next s) ∧
    (s.parser = .adfe → exec .byteEtx s = .next { s with parser := .afs }) ∧
    (s.parser = .pt → s.len = 8 → exec .byteEtx s = .next (s.afterError .tagTooLong)) ∧
    (s.parser = .pt → s.len < 8 → exec .byteEtx s = .next (s.afterAppend 0x03#7)) ∧
    (s.parser = .pd → s.len = s.cfg.bufCap → exec .byteEtx s = .next (s.afterError .datasetTooLong)) ∧
    (s.parser = .pd → s.len < s.cfg.bufCap → exec .byteEtx s = .next (s.afterAppend 0x03#7))

/-- R143, with the append actions R147 and R148 for its value. -/
def Obligations.LfStep : Prop :=
  decode (.raw 0x8A#8) = .instr .byteLf ∧
  ∀ s : State, s.cfg.wf →
    (s.parser = .afs → exec .byteLf s = .next s) ∧
    (s.parser = .adfe → exec .byteLf s = .next { s with parser := .pt, len := 0 }) ∧
    (s.parser = .pt → s.len = 8 → exec .byteLf s = .next (s.afterError .tagTooLong)) ∧
    (s.parser = .pt → s.len < 8 → exec .byteLf s = .next (s.afterAppend 0x0A#7)) ∧
    (s.parser = .pd → s.len = s.cfg.bufCap → exec .byteLf s = .next (s.afterError .datasetTooLong)) ∧
    (s.parser = .pd → s.len < s.cfg.bufCap → exec .byteLf s = .next (s.afterAppend 0x0A#7))

/-- R144 outside `PD`: CR is ignored, unexpected, or a tag byte. -/
def Obligations.CrStepOutsideData : Prop :=
  decode (.raw 0x0D#8) = .instr .byteCr ∧
  ∀ s : State, s.cfg.wf →
    (s.parser = .afs → exec .byteCr s = .next s) ∧
    (s.parser = .adfe → exec .byteCr s = .next (s.afterError .unexpectedByte)) ∧
    (s.parser = .pt → s.len = 8 → exec .byteCr s = .next (s.afterError .tagTooLong)) ∧
    (s.parser = .pt → s.len < 8 → exec .byteCr s = .next (s.afterAppend 0x0D#7))

/-- R146: TAB and SPACE. An empty tag is accepted (the spec's decision D8). In `PT` the splitter is stored without a
length test, also behind a tag of 8 bytes, and becomes the active splitter; in `PD` it is a data byte. -/
def Obligations.SplitterStep : Prop :=
  decode (.raw 0x89#8) = .instr .byteTab ∧ decode (.raw 0x20#8) = .instr .byteSp ∧
  ∀ (s : State) (i : Instr) (v : Val), (i, v) ∈ [(Instr.byteTab, 0x09#7), (.byteSp, 0x20#7)] → s.cfg.wf →
    (s.parser = .afs → exec i s = .next s) ∧
    (s.parser = .adfe → exec i s = .next (s.afterError .unexpectedByte)) ∧
    (s.parser = .pt → s.len ≤ 8 → exec i s = .next { s.afterAppend v with split := v, parser := .pd }) ∧
    (s.parser = .pd → s.len = s.cfg.bufCap → exec i s = .next (s.afterError .datasetTooLong)) ∧
    (s.parser = .pd → s.len < s.cfg.bufCap → exec i s = .next (s.afterAppend v))

/-- R145, with the append actions R147 and R148 for its value. That printable bytes in `ADFE` are UnexpectedByte too is
the spec's decision D8. -/
def Obligations.OtherByteStep : Prop :=
  (∀ r : Raw, popcount r % 2 = 1 → strip r ∉ [0x02#7, 0x03#7, 0x09#7, 0x0A#7, 0x0D#7, 0x20#7] →
    decode (.raw r) = .instr (.byteOther (parityBit r) (strip r))) ∧
  ∀ (s : State) (p : BitVec 1) (d : Val), s.cfg.wf →
    (s.parser = .afs → exec (.byteOther p d) s = .next s) ∧
    (s.parser = .adfe → exec (.byteOther p d) s = .next (s.afterError .unexpectedByte)) ∧
    (s.parser = .pt → s.len = 8 → exec (.byteOther p d) s = .next (s.afterError .tagTooLong)) ∧
    (s.parser = .pt → s.len < 8 → exec (.byteOther p d) s = .next (s.afterAppend d)) ∧
    (s.parser = .pd → s.len = s.cfg.bufCap → exec (.byteOther p d) s = .next (s.afterError .datasetTooLong)) ∧
    (s.parser = .pd → s.len < s.cfg.bufCap → exec (.byteOther p d) s = .next (s.afterAppend d))

/-- A byte step leaves the detector's registers, the configuration and the external agents as they are. -/
def Obligations.ByteStepFrame : Prop :=
  ∀ (i : Instr) (s t : State), isByte i = true → exec i s = .next t →
    t.min = s.min ∧ t.idx = s.idx ∧ t.cfg = s.cfg ∧ t.commands = s.commands ∧ t.source = s.source ∧
      t.arrivals = s.arrivals ∧ t.line = s.line

/-- A byte step that does not end POLL writes at most the cell at `LEN`; every other cell of the buffer reads as before
(20_memory.md R52). -/
def Obligations.ByteStepWritesOnlyTheNextCell : Prop :=
  ∀ (i : Instr) (s t : State), isByte i = true → s.activity = .polling → exec i s = .next t → t.activity = .polling →
    ∀ j, j ≠ s.len → t.cell j = s.cell j

/-! ## Validation at CR in `PD` -/

/-- R171, which the spec marks as derived: with neither TAB nor SPACE recorded, CR raises InvalidSplitter; and no step of
a POLL from a state that meets the invariant does (R206). -/
def Obligations.InvalidSplitterIsDefinedAndNeverHappens : Prop :=
  (∀ s : State, s.parser = .pd → s.split ≠ 0x09#7 → s.split ≠ 0x20#7 →
    exec .byteCr s = .next (s.afterError .invalidSplitter)) ∧
  ∀ s t : State, s.Inv → s.activity = .polling → step s = .next t → t.outcome ≠ some (.error .invalidSplitter)

/-- The last buffered byte `c` is compared with the sum of all bytes but the last two (SPACE) or all but the last (TAB),
mod 64, plus 0x20; CR raises InvalidChecksum exactly when they differ, whatever the field count is. The ranges are R172's
and R173's (by position: the spec's decision D7); the arithmetic and the priority over the field count are R174's and
R210's, which the spec marks as derived. -/
def Obligations.CrRaisesInvalidChecksumOnMismatch : Prop :=
  ∀ (s : State) (body : List Val) (c : Val), s.parser = .pd → s.Holds (body ++ [c]) →
    (s.split = 0x20#7 →
      (exec .byteCr s = .next (s.afterError .invalidChecksum) ↔
        (body.dropLast.map BitVec.toNat).sum % 64 + 0x20 ≠ c.toNat)) ∧
    (s.split = 0x09#7 →
      (exec .byteCr s = .next (s.afterError .invalidChecksum) ↔
        (body.map BitVec.toNat).sum % 64 + 0x20 ≠ c.toNat))

/-- R175: with the right checksum, CR raises InvalidFieldCount exactly when the number of active splitters before the
checksum byte is neither 2 nor 3. Bytes equal to the other splitter, and the checksum byte itself, are not counted. -/
def Obligations.CrRaisesInvalidFieldCountUnlessTwoOrThree : Prop :=
  ∀ (s : State) (body : List Val) (c : Val), s.parser = .pd → s.Holds (body ++ [c]) → s.ChecksumRight body c →
    (exec .byteCr s = .next (s.afterError .invalidFieldCount) ↔ body.count s.split ≠ 2 ∧ body.count s.split ≠ 3)

/-- R176, R178. With two splitters the tag is what stands before the first and the data what stands between the two; with
three, the data stands between the last two and the field before it, the timestamp, is discarded. Bytes behind the last
splitter are discarded (the spec's decision D7). The buffer, `LEN` and `SPLIT` stay (D11). The outcome's record carries
both fields and their lengths. -/
def Obligations.CrProducesTheDataset : Prop :=
  (∀ (s : State) (tag data extra : List Val) (c : Val), s.parser = .pd →
    s.Holds (tag ++ s.split :: (data ++ s.split :: extra) ++ [c]) →
    s.split ∉ tag → s.split ∉ data → s.split ∉ extra →
    s.ChecksumRight (tag ++ s.split :: (data ++ s.split :: extra)) c →
    exec .byteCr s = .next (s.afterProduced tag data)) ∧
  (∀ (s : State) (tag timestamp data extra : List Val) (c : Val), s.parser = .pd →
    s.Holds (tag ++ s.split :: (timestamp ++ s.split :: (data ++ s.split :: extra)) ++ [c]) →
    s.split ∉ tag → s.split ∉ timestamp → s.split ∉ data → s.split ∉ extra →
    s.ChecksumRight (tag ++ s.split :: (timestamp ++ s.split :: (data ++ s.split :: extra))) c →
    exec .byteCr s = .next (s.afterProduced tag data)) ∧
  ∀ tag data : List Val, tag.length ≤ 8 → data.length ≤ 34 → ∃ tl dl,
    outcomeRecord (.produced tag data) = ⟨1#2, none, none, some tl, some tag, some dl, some data⟩ ∧
    tl.toNat = tag.length ∧ dl.toNat = data.length

/-! ## The whole machine

A step of a POLL or of a DETECT is the model's step, with the transport's turn before it: notes/assumptions/1.md and 4.md. -/

/-- R230: the power-on state, the spec's decision (92_eei_decisions.md D12). -/
def Obligations.PowerOnState : Prop :=
  State.reset.parser = .afs ∧ State.reset.len = 0 ∧ State.reset.split = 0x00#7 ∧
    State.reset.buf = List.replicate 37 none ∧ State.reset.min = none ∧ State.reset.idx = none

/-- The power-on state meets the invariant of R32. -/
def Obligations.ResetMeetsInvariant : Prop :=
  State.reset.Inv

/-- Every step keeps the invariant of R32, whatever the host, the transport and the line do. -/
def Obligations.StepKeepsInvariant : Prop :=
  ∀ s t : State, s.Inv → step s = .next t → t.Inv

/-- In a state that meets the invariant no step reads a cell without a value, appends past the capacity, or reads `MIN` or
`IDX` without a value (R51, R52, R29). -/
def Obligations.InvariantStepNeverFaults : Prop :=
  ∀ s : State, s.Inv → ∀ f, step s ≠ .fault f

/-- When a POLL step ends with an error, exactly the offending byte has left the source, and the parser is at its reset
values (R211, R209, as the spec decided: 92_eei_decisions.md D13, D9). One byte a step, after the transport's turn: the
model's choices notes/assumptions/1.md and 4.md. -/
def Obligations.PollErrorIsPreciseAndResets : Prop :=
  ∀ (s t : State) (k : ErrorKind), s.Inv → s.activity = .polling → step s = .next t → t.outcome = some (.error k) →
    ∃ r q, s.source ++ s.arrivals.head [] = r :: q ∧ t = { s.afterArrivals with source := q }.afterError k

/-- A POLL step that produces a dataset has read a CR in `PD` and ends POLL; the bytes behind the CR stay in the source
(R124), and `LEN`, `SPLIT` and `BUF` stay as they were (R178, the spec's decision D11). One byte a step, after the
transport's turn: the model's choices notes/assumptions/1.md and 4.md. -/
def Obligations.ProducedDatasetEndsPoll : Prop :=
  ∀ (s t : State) (tag data : List Val), s.Inv → s.activity = .polling → step s = .next t →
    t.outcome = some (.produced tag data) →
    ∃ q, s.source ++ s.arrivals.head [] = 0x0D#8 :: q ∧ s.parser = .pd ∧
      t = { s.afterArrivals with source := q }.afterProduced tag data

/-- R177, which the spec marks as derived: the fields of a produced dataset fit the outcome record. -/
def Obligations.ProducedFieldsFit : Prop :=
  ∀ (s t : State) (tag data : List Val), s.Inv → s.activity = .polling → step s = .next t →
    t.outcome = some (.produced tag data) → tag.length ≤ 8 ∧ data.length ≤ s.cfg.bufCap - 3

/-- R81, which the spec marks as derived: the outcomes each command can return. -/
def Obligations.OutcomesOfEachCommand : Prop :=
  (∀ s t : State, s.Inv → s.activity = .polling → step s = .next t → t.activity = .idle →
    t.outcome = some .empty ∨ (∃ tag data, t.outcome = some (.produced tag data)) ∨
      ∃ k, t.outcome = some (.error k) ∧ k ≠ .detectionFailed) ∧
  (∀ s t : State, s.activity = .detecting → step s = .next t → t.activity = .idle →
    (∃ r, t.outcome = some (.rate r)) ∨ t.outcome = some (.error .detectionFailed)) ∧
  (∀ s t : State, exec .reset s = .next t → t.outcome = some .empty) ∧
  (∀ s t : State, exec .detect1200 s = .next t ∨ exec .detect9600 s = .next t → ∃ r, t.outcome = some (.rate r))

/-- R53: the source is a FIFO. In every step the transport appends at the end, and the block takes out at most the head,
and only while it polls. -/
def Obligations.SourceIsAFifo : Prop :=
  ∀ s t : State, step s = .next t →
    t.source = s.source ++ s.arrivals.head [] ∨
      s.activity = .polling ∧ ∃ r, r :: t.source = s.source ++ s.arrivals.head []

/-- R58, R238: commands are serialized. A step takes something from the host only when no transaction is in progress. -/
def Obligations.CommandsAreTakenOnlyWhenIdle : Prop :=
  ∀ s t : State, step s = .next t → s.activity ≠ .idle → t.commands = s.commands

/-- Only POLL's byte steps and RESET write the parser registers (R24 to R27, R106), and nothing writes the configuration.
-/
def Obligations.ParserWrittenOnlyByPollAndReset : Prop :=
  ∀ s t : State, step s = .next t →
    t.cfg = s.cfg ∧
      (s.activity ≠ .polling → ¬ (s.activity = .idle ∧ s.commands.head none = some 0x0#4) → s.SameParser t)

/-- R129: when the transport appends nothing, POLL ends after at most one step for each byte in the source, and one more.
The step count is the model's choice: notes/assumptions/1.md. -/
def Obligations.PollEndsWhenNothingArrives : Prop :=
  ∀ s : State, s.Inv → s.activity = .polling → s.arrivals = .silent →
    ∃ k t, k ≤ s.source.length + 1 ∧ run k s = .next t ∧ t.activity = .idle ∧ t.outcome ≠ none

/-- R240 (b): a POLL to which the transport delivers one ignored byte (raw 0x80, the value 0) before every step never
ends. The endless arrivals are a feed of notes/assumptions/3.md. -/
def Obligations.PollFedForeverNeverEnds : Prop :=
  ∀ s : State, s.cfg.wf → s.activity = .polling → s.parser = .afs → s.source = [] →
    s.arrivals = ⟨[], [[0x80#8]]⟩ →
    ∀ n, ∃ t, run n s = .next t ∧ t.activity = .polling

/-- A POLL that meets only the first part of the bytes returns EMPTY, and a later POLL over the rest goes on from the very
state in which one POLL over all the bytes would be (R128, R33). The step counts are the model's choice:
notes/assumptions/1.md. -/
def Obligations.PartialDrainGoesOnLater : Prop :=
  ∀ (s t : State) (first later : List Raw),
    s.cfg.wf → s.activity = .polling → s.outcome = none → s.commands = .silent → s.arrivals = .silent →
    s.source = first → run first.length s = .next t → t.activity = .polling →
    run (first.length + 1) s = .next { t with activity := .idle, outcome := some .empty } ∧
    run first.length { s with source := first ++ later } = .next { t with source := later } ∧
    step { t with activity := .idle, outcome := some .empty, source := later, commands := ⟨[some 0x1#4], []⟩ } =
      .next { t with source := later }

/-- Round trip and resynchronization (95_test_vectors.md W4): a POLL that starts outside a frame ignores any valid bytes
but STX, then decodes STX and a well-formed 2-field dataset with its checksum to its own tag and data, and leaves the
bytes behind it in the source. The step count is the model's choice: notes/assumptions/1.md. `PollDecodesTheNextDataset`
starts inside a frame. -/
def Obligations.PollDecodesAWellFormedDataset : Prop :=
  ∀ (s : State) (noise rest : List Raw) (tag data : List Val) (sep : Val),
    s.Inv → s.activity = .polling → s.parser = .afs → s.arrivals = .silent →
    (∀ r ∈ noise, popcount r % 2 = 1 ∧ r ≠ 0x02#8) →
    (sep = 0x09#7 ∨ sep = 0x20#7) → tag.length ≤ 8 → (∀ v ∈ tag, v ≠ 0x09#7 ∧ v ≠ 0x20#7) →
    (∀ v ∈ data, v ≠ sep ∧ v ≠ 0x0D#7) → tag.length + data.length + 3 ≤ s.cfg.bufCap →
    s.source = noise ++ rawStream (0x02#7 :: ds tag sep data) ++ rest →
    ∃ t, run (noise.length + tag.length + data.length + 6) s = .next t ∧ t.activity = .idle ∧
      t.outcome = some (.produced tag data) ∧ t.parser = .adfe ∧ t.source = rest

/-- The same for a 3-field dataset: the timestamp is not part of the outcome (R82). The step count is the model's choice:
notes/assumptions/1.md. `PollDecodesTheNextThreeFieldDataset` starts inside a frame. -/
def Obligations.PollDecodesAThreeFieldDataset : Prop :=
  ∀ (s : State) (noise rest : List Raw) (tag timestamp data : List Val) (sep : Val),
    s.Inv → s.activity = .polling → s.parser = .afs → s.arrivals = .silent →
    (∀ r ∈ noise, popcount r % 2 = 1 ∧ r ≠ 0x02#8) →
    (sep = 0x09#7 ∨ sep = 0x20#7) → tag.length ≤ 8 → (∀ v ∈ tag, v ≠ 0x09#7 ∧ v ≠ 0x20#7) →
    (∀ v ∈ timestamp, v ≠ sep ∧ v ≠ 0x0D#7) → (∀ v ∈ data, v ≠ sep ∧ v ≠ 0x0D#7) →
    tag.length + timestamp.length + data.length + 4 ≤ s.cfg.bufCap →
    s.source = noise ++ rawStream (0x02#7 :: ds3 tag sep timestamp data) ++ rest →
    ∃ t, run (noise.length + tag.length + timestamp.length + data.length + 7) s = .next t ∧ t.activity = .idle ∧
      t.outcome = some (.produced tag data) ∧ t.parser = .adfe ∧ t.source = rest

/-- A whole DETECT during which the line reader keeps DETECT waiting any number of turns before each of the ten pulses (R101,
R103, R107): it still ends with the outcome of the smallest width. The number of steps, one for the command, one for each
turn of the line reader, one for the classification, is the model's choice: notes/assumptions/1.md. -/
def Obligations.DetectWithWaitsClassifiesTheSmallest : Prop :=
  ∀ (s : State) (turns later : List (Option Nat)) (cs : List (Option CmdWord)) (m d : Nat),
    s.cfg.wf → s.activity = .idle → s.commands.coming = some 0x2#4 :: cs →
    turns.countP Option.isSome = 10 → turns.getLast? = some (some d) → s.line.coming = turns ++ later →
    some m ∈ turns → (∀ w, some w ∈ turns → m ≤ w) →
    ∃ t, run (turns.length + 2) s = .next t ∧ t.activity = .idle ∧ s.SameParser t ∧ t.min = none ∧ t.idx = none ∧
      t.commands.coming = cs ∧ t.line.coming = later ∧
      t.outcome = some (
        if 666 ≤ m ∧ m ≤ 1000 then .rate .b1200
        else if 83 ≤ m ∧ m ≤ 125 then .rate .b9600
        else .error .detectionFailed)

/-- A POLL that starts inside a frame, between two datasets, decodes a well-formed 2-field dataset to its own tag and data,
whatever the dataset before it left in `LEN`, `SPLIT` and `BUF` (R143, R32), and leaves the bytes behind it in the source.
The step count is the model's choice: notes/assumptions/1.md. -/
def Obligations.PollDecodesTheNextDataset : Prop :=
  ∀ (s : State) (rest : List Raw) (tag data : List Val) (sep : Val),
    s.Inv → s.activity = .polling → s.parser = .adfe → s.arrivals = .silent →
    (sep = 0x09#7 ∨ sep = 0x20#7) → tag.length ≤ 8 → (∀ v ∈ tag, v ≠ 0x09#7 ∧ v ≠ 0x20#7) →
    (∀ v ∈ data, v ≠ sep ∧ v ≠ 0x0D#7) → tag.length + data.length + 3 ≤ s.cfg.bufCap →
    s.source = rawStream (ds tag sep data) ++ rest →
    ∃ t, run (tag.length + data.length + 5) s = .next t ∧ t.activity = .idle ∧
      t.outcome = some (.produced tag data) ∧ t.parser = .adfe ∧ t.source = rest

/-- The same for a 3-field dataset: the timestamp is not part of the outcome (R82). The step count is the model's choice:
notes/assumptions/1.md. -/
def Obligations.PollDecodesTheNextThreeFieldDataset : Prop :=
  ∀ (s : State) (rest : List Raw) (tag timestamp data : List Val) (sep : Val),
    s.Inv → s.activity = .polling → s.parser = .adfe → s.arrivals = .silent →
    (sep = 0x09#7 ∨ sep = 0x20#7) → tag.length ≤ 8 → (∀ v ∈ tag, v ≠ 0x09#7 ∧ v ≠ 0x20#7) →
    (∀ v ∈ timestamp, v ≠ sep ∧ v ≠ 0x0D#7) → (∀ v ∈ data, v ≠ sep ∧ v ≠ 0x0D#7) →
    tag.length + timestamp.length + data.length + 4 ≤ s.cfg.bufCap →
    s.source = rawStream (ds3 tag sep timestamp data) ++ rest →
    ∃ t, run (tag.length + timestamp.length + data.length + 6) s = .next t ∧ t.activity = .idle ∧
      t.outcome = some (.produced tag data) ∧ t.parser = .adfe ∧ t.source = rest
end

