-- ==== Sys2Proof/Laws/Decode.lean ====
section
/-! SUPPORT. What the decoder answers: every raw byte has a byte class, every command word a command or a rejection. -/

namespace Sys2Proof

open Machine (parityBad popcount strip parityBit joinRaw isByte validRaw)

theorem joinRaw_fields (r : Raw) : joinRaw (parityBit r) (strip r) = r := by
  revert r; decide

theorem strip_validRaw (v : Val) : strip (validRaw v) = v := by
  revert v; decide

theorem not_parityBad_validRaw (v : Val) : ¬ parityBad (validRaw v) := by
  revert v; decide

theorem isByte_decodeByte (r : Raw) : isByte (decodeByte r) = true := by
  unfold decodeByte
  repeat' split
  all_goals rfl

theorem wellFormed_decodeByte (r : Raw) : (decodeByte r).wellFormed = true := by
  unfold decodeByte
  repeat' split
  all_goals try rfl
  all_goals simp only [Instr.wellFormed, decide_eq_true_eq, joinRaw_fields, Machine.isNamed, Machine.isSplitter]
  all_goals tauto

/-- Each command word is one of the five, or reserved (R78). -/
theorem decodeCommand_cases (w : CmdWord) :
    (∃ i ∈ [Instr.reset, .poll, .detect, .detect1200, .detect9600], decodeCommand w = .instr i) ∨
      decodeCommand w = .reservedCommand w := by
  unfold decodeCommand
  repeat' split
  all_goals simp

end Sys2Proof
end

