-- ==== Sys2Proof/Laws/State.lean ====
section
/-! SUPPORT. What each named update of State does to each field: one lemma per field, true by rfl, so that no later proof
unfolds a record update. -/

namespace Sys2Proof.Machine.State

@[simp] theorem deliver_parser (s : State) : s.deliver.parser = s.parser := rfl
@[simp] theorem deliver_len (s : State) : s.deliver.len = s.len := rfl
@[simp] theorem deliver_split (s : State) : s.deliver.split = s.split := rfl
@[simp] theorem deliver_buf (s : State) : s.deliver.buf = s.buf := rfl
@[simp] theorem deliver_min (s : State) : s.deliver.min = s.min := rfl
@[simp] theorem deliver_idx (s : State) : s.deliver.idx = s.idx := rfl
@[simp] theorem deliver_cfg (s : State) : s.deliver.cfg = s.cfg := rfl
@[simp] theorem deliver_activity (s : State) : s.deliver.activity = s.activity := rfl
@[simp] theorem deliver_outcome (s : State) : s.deliver.outcome = s.outcome := rfl
@[simp] theorem deliver_commands (s : State) : s.deliver.commands = s.commands := rfl
@[simp] theorem deliver_source (s : State) : s.deliver.source = s.source ++ s.arrivals.head [] := rfl
@[simp] theorem deliver_arrivals (s : State) : s.deliver.arrivals = s.arrivals.rest := rfl
@[simp] theorem deliver_line (s : State) : s.deliver.line = s.line := rfl

@[simp] theorem pushed_parser (v : Val) (s : State) : (s.pushed v).parser = s.parser := rfl
@[simp] theorem pushed_len (v : Val) (s : State) : (s.pushed v).len = s.len + 1 := rfl
@[simp] theorem pushed_split (v : Val) (s : State) : (s.pushed v).split = s.split := rfl
@[simp] theorem pushed_buf (v : Val) (s : State) : (s.pushed v).buf = s.buf.set s.len (some v) := rfl
@[simp] theorem pushed_min (v : Val) (s : State) : (s.pushed v).min = s.min := rfl
@[simp] theorem pushed_idx (v : Val) (s : State) : (s.pushed v).idx = s.idx := rfl
@[simp] theorem pushed_cfg (v : Val) (s : State) : (s.pushed v).cfg = s.cfg := rfl
@[simp] theorem pushed_activity (v : Val) (s : State) : (s.pushed v).activity = s.activity := rfl
@[simp] theorem pushed_outcome (v : Val) (s : State) : (s.pushed v).outcome = s.outcome := rfl
@[simp] theorem pushed_commands (v : Val) (s : State) : (s.pushed v).commands = s.commands := rfl
@[simp] theorem pushed_source (v : Val) (s : State) : (s.pushed v).source = s.source := rfl
@[simp] theorem pushed_arrivals (v : Val) (s : State) : (s.pushed v).arrivals = s.arrivals := rfl
@[simp] theorem pushed_line (v : Val) (s : State) : (s.pushed v).line = s.line := rfl

@[simp] theorem finished_parser (o : CmdOutcome) (s : State) : (s.finished o).parser = s.parser := rfl
@[simp] theorem finished_len (o : CmdOutcome) (s : State) : (s.finished o).len = s.len := rfl
@[simp] theorem finished_split (o : CmdOutcome) (s : State) : (s.finished o).split = s.split := rfl
@[simp] theorem finished_buf (o : CmdOutcome) (s : State) : (s.finished o).buf = s.buf := rfl
@[simp] theorem finished_min (o : CmdOutcome) (s : State) : (s.finished o).min = s.min := rfl
@[simp] theorem finished_idx (o : CmdOutcome) (s : State) : (s.finished o).idx = s.idx := rfl
@[simp] theorem finished_cfg (o : CmdOutcome) (s : State) : (s.finished o).cfg = s.cfg := rfl
@[simp] theorem finished_activity (o : CmdOutcome) (s : State) : (s.finished o).activity = .idle := rfl
@[simp] theorem finished_outcome (o : CmdOutcome) (s : State) : (s.finished o).outcome = some o := rfl
@[simp] theorem finished_commands (o : CmdOutcome) (s : State) : (s.finished o).commands = s.commands := rfl
@[simp] theorem finished_source (o : CmdOutcome) (s : State) : (s.finished o).source = s.source := rfl
@[simp] theorem finished_arrivals (o : CmdOutcome) (s : State) : (s.finished o).arrivals = s.arrivals := rfl
@[simp] theorem finished_line (o : CmdOutcome) (s : State) : (s.finished o).line = s.line := rfl

@[simp] theorem cleared_parser (s : State) : s.cleared.parser = .afs := rfl
@[simp] theorem cleared_len (s : State) : s.cleared.len = 0 := rfl
@[simp] theorem cleared_split (s : State) : s.cleared.split = splitNone := rfl
@[simp] theorem cleared_buf (s : State) : s.cleared.buf = List.replicate s.cfg.bufCap none := rfl
@[simp] theorem cleared_min (s : State) : s.cleared.min = s.min := rfl
@[simp] theorem cleared_idx (s : State) : s.cleared.idx = s.idx := rfl
@[simp] theorem cleared_cfg (s : State) : s.cleared.cfg = s.cfg := rfl
@[simp] theorem cleared_activity (s : State) : s.cleared.activity = s.activity := rfl
@[simp] theorem cleared_outcome (s : State) : s.cleared.outcome = s.outcome := rfl
@[simp] theorem cleared_commands (s : State) : s.cleared.commands = s.commands := rfl
@[simp] theorem cleared_source (s : State) : s.cleared.source = s.source := rfl
@[simp] theorem cleared_arrivals (s : State) : s.cleared.arrivals = s.arrivals := rfl
@[simp] theorem cleared_line (s : State) : s.cleared.line = s.line := rfl

@[simp] theorem errored_parser (k : ErrorKind) (s : State) : (s.errored k).parser = .afs := rfl
@[simp] theorem errored_len (k : ErrorKind) (s : State) : (s.errored k).len = 0 := rfl
@[simp] theorem errored_split (k : ErrorKind) (s : State) : (s.errored k).split = splitNone := rfl
@[simp] theorem errored_buf (k : ErrorKind) (s : State) : (s.errored k).buf = List.replicate s.cfg.bufCap none := rfl
@[simp] theorem errored_min (k : ErrorKind) (s : State) : (s.errored k).min = s.min := rfl
@[simp] theorem errored_idx (k : ErrorKind) (s : State) : (s.errored k).idx = s.idx := rfl
@[simp] theorem errored_cfg (k : ErrorKind) (s : State) : (s.errored k).cfg = s.cfg := rfl
@[simp] theorem errored_activity (k : ErrorKind) (s : State) : (s.errored k).activity = .idle := rfl
@[simp] theorem errored_outcome (k : ErrorKind) (s : State) : (s.errored k).outcome = some (.error k) := rfl
@[simp] theorem errored_commands (k : ErrorKind) (s : State) : (s.errored k).commands = s.commands := rfl
@[simp] theorem errored_source (k : ErrorKind) (s : State) : (s.errored k).source = s.source := rfl
@[simp] theorem errored_arrivals (k : ErrorKind) (s : State) : (s.errored k).arrivals = s.arrivals := rfl
@[simp] theorem errored_line (k : ErrorKind) (s : State) : (s.errored k).line = s.line := rfl

end Sys2Proof.Machine.State
end

