-- ==== Sys2Proof/Laws/Ops.lean ====
section
/-! SUPPORT. What the shared operations do: feeds, the buffer primitives, the append actions, and that the buffer keeps its
form. -/

namespace Sys2Proof.Machine

/-! ### Feeds -/

section Feeds
variable {α : Type} (d a : α) (as rs : List α)

@[simp] theorem Feed.head_cons : Feed.head d ⟨a :: as, rs⟩ = a := rfl
@[simp] theorem Feed.rest_cons : Feed.rest ⟨a :: as, rs⟩ = ⟨as, rs⟩ := rfl
@[simp] theorem Feed.head_repeating : Feed.head d ⟨[], a :: rs⟩ = a := rfl
@[simp] theorem Feed.rest_repeating : Feed.rest ⟨[], a :: rs⟩ = ⟨rs, a :: rs⟩ := rfl
@[simp] theorem Feed.head_silent : Feed.head d (Feed.silent : Feed α) = d := rfl
@[simp] theorem Feed.rest_silent : Feed.rest (Feed.silent : Feed α) = Feed.silent := rfl

theorem Feed.head_of_coming {f : Feed α} (h : f.coming = a :: as) : f.head d = a := by
  simp [Feed.head, h]

theorem Feed.rest_of_coming {f : Feed α} (h : f.coming = a :: as) : f.rest.coming = as := by
  simp [Feed.rest, h]

end Feeds

/-! ### Cells and slices -/

namespace State

theorem deliver_of_silent {s : State} (h : s.arrivals = .silent) : s.deliver = s := by
  simp only [deliver, h, Feed.head_silent, Feed.rest_silent, List.append_nil]
  rw [← h]

@[simp] theorem cell_deliver (s : State) (i : Nat) : s.deliver.cell i = s.cell i := rfl

@[simp] theorem cell_finished (o : CmdOutcome) (s : State) (i : Nat) : (s.finished o).cell i = s.cell i := rfl

@[simp] theorem cell_cleared (s : State) (i : Nat) : s.cleared.cell i = none := by
  simp [cell, List.getD_eq_getElem?_getD, List.getElem?_replicate]; split <;> rfl

theorem cell_pushed_len {s : State} (v : Val) (h : s.len < s.buf.length) : (s.pushed v).cell s.len = some v := by
  simp [cell, h]

theorem cell_pushed_ne (v : Val) (s : State) {i : Nat} (h : i ≠ s.len) : (s.pushed v).cell i = s.cell i := by
  simp [cell, List.getD_eq_getElem?_getD, List.getElem?_set_ne (Ne.symm h)]

theorem Holds.cell {s : State} {vs : List Val} (h : s.Holds vs) {i : Nat} (hi : i < s.len) : s.cell i = vs[i]? := by
  have : (s.buf.take s.len)[i]? = (vs.map some)[i]? := by rw [h.2]
  rw [List.getElem?_take_of_lt hi, List.getElem?_map] at this
  rw [State.cell, List.getD_eq_getElem?_getD, this, List.getElem?_eq_getElem (h.1 ▸ hi)]
  rfl

theorem Holds.bufRead {s : State} {vs : List Val} (h : s.Holds vs) (i : Nat) : s.bufRead i = vs[i]? := by
  unfold State.bufRead
  split
  · exact h.cell ‹_›
  · rw [List.getElem?_eq_none (by have := h.1; omega)]

/-- Inside the valid bytes a slice is defined, and it is the part of the list the rules write as `BUF[lo .. lo+n)`. -/
theorem Holds.bufSlice {s : State} {vs : List Val} (h : s.Holds vs) (n lo : Nat) (hn : lo + n ≤ vs.length) :
    s.bufSlice lo n = some ((vs.drop lo).take n) := by
  induction n generalizing lo with
  | zero => simp [State.bufSlice]
  | succ n ih =>
    have hlo : lo < vs.length := by omega
    rw [State.bufSlice, ih (lo + 1) (by omega), h.bufRead, List.getElem?_eq_getElem hlo, List.drop_eq_getElem_cons hlo]
    rfl

/-- A buffer in order holds some list of valid bytes. -/
theorem BufferOk.holds {s : State} (h : s.BufferOk) : ∃ vs, s.Holds vs ∧ vs.length = s.len := by
  obtain ⟨hl, hle, hc⟩ := h
  refine ⟨(s.buf.take s.len).map (·.getD 0#7), ⟨by simp; omega, ?_⟩, by simp; omega⟩
  rw [List.map_map]
  refine List.ext_getElem (by simp) fun i h₁ _ => ?_
  have hi : i < s.len := by simp at h₁; omega
  have := hc i hi
  rw [cell, List.getD_eq_getElem?_getD, List.getElem?_eq_getElem (by omega)] at this
  obtain ⟨v, hv⟩ := Option.ne_none_iff_exists'.mp this
  simp only [Option.getD_some] at hv
  simp [hv]

theorem Holds.pushed {s : State} {vs : List Val} (h : s.Holds vs) (hl : s.len < s.buf.length) (v : Val) :
    (s.pushed v).Holds (vs ++ [v]) := by
  refine ⟨by simp [h.1], ?_⟩
  have hset : (s.buf.set s.len (some v)).take (s.len + 1) = s.buf.take s.len ++ [some v] := by
    rw [List.take_add_one, List.take_set_of_le (Nat.le_refl _)]
    simp [hl]
  simpa [h.2] using hset

/-! ### The buffer keeps its form -/

theorem BufferOk.pushed {s : State} (h : s.BufferOk) (v : Val) (hl : s.len < s.cfg.bufCap) : (s.pushed v).BufferOk := by
  refine ⟨by simp [h.1], hl, fun i hi => ?_⟩
  by_cases hi' : i = s.len
  · subst hi'; rw [cell_pushed_len v (h.1 ▸ hl)]; simp
  · rw [cell_pushed_ne v s hi']; exact h.2.2 i (by simp at hi; omega)

theorem BufferOk.cleared (s : State) : s.cleared.BufferOk := by
  exact ⟨by simp, by simp, fun i hi => by simp at hi⟩

theorem NoSplitterBelow.pushed {s : State} {n : Nat} (h : s.NoSplitterBelow n) (v : Val) (hn : n ≤ s.len) :
    (s.pushed v).NoSplitterBelow n := fun i hi => by
  rw [cell_pushed_ne v s (by omega)]; exact h i hi

end State

/-! ### Append actions -/

theorem append_of_lt {s : State} (v : Val) (h : s.len < s.cfg.bufCap) : s.append v = some (s.pushed v) := by
  simp [State.append, h]

theorem append_of_not_lt {s : State} (v : Val) (h : ¬ s.len < s.cfg.bufCap) : s.append v = none := by
  simp [State.append, h]

/-- Everything `TagAppend` can answer (R147). -/
theorem tagAppend_cases (v : Val) (s : State) :
    (s.len = Config.tagCap ∧ tagAppend v s = .next (s.errored .tagTooLong)) ∨
    (s.len ≠ Config.tagCap ∧ s.len < s.cfg.bufCap ∧ tagAppend v s = .next (s.pushed v)) ∨
    (s.len ≠ Config.tagCap ∧ ¬ s.len < s.cfg.bufCap ∧ tagAppend v s = .fault .appendPastCapacity) := by
  unfold tagAppend
  by_cases h : s.len = Config.tagCap
  · simp [h, raiseError]
  · by_cases hl : s.len < s.cfg.bufCap
    · simp [h, hl, append_of_lt v hl]
    · simp [h, hl, append_of_not_lt v hl]

/-- Everything `DataAppend` can answer (R148). -/
theorem dataAppend_cases (v : Val) (s : State) :
    (s.len = s.cfg.bufCap ∧ dataAppend v s = .next (s.errored .datasetTooLong)) ∨
    (s.len < s.cfg.bufCap ∧ dataAppend v s = .next (s.pushed v)) ∨
    (s.cfg.bufCap < s.len ∧ dataAppend v s = .fault .appendPastCapacity) := by
  unfold dataAppend
  by_cases h : s.len = s.cfg.bufCap
  · simp [h, raiseError]
  · by_cases hl : s.len < s.cfg.bufCap
    · simp [h, hl, append_of_lt v hl]
    · have : s.cfg.bufCap < s.len := by omega
      simp [h, this, append_of_not_lt v hl]

/-! ### Runs -/

theorem run_zero (s : State) : run 0 s = .next s := rfl

theorem run_succ_of_next {s t : State} (h : step s = .next t) (k : Nat) : run (k + 1) s = run k t := by
  rw [run, h]

/-- A run that ends in a state has a first step that does. -/
theorem step_of_run_succ {k : Nat} {s t : State} (h : run (k + 1) s = .next t) :
    ∃ u, step s = .next u ∧ run k u = .next t := by
  rw [run] at h
  split at h
  · exact ⟨_, ‹_›, h⟩
  · cases h
  · cases h

theorem coreRun_succ (M : Host.Core) (k : Nat) (s : M.State) :
    (∀ t, M.step s = .next t → M.run (k + 1) s = M.run k t) ∧
    (∀ r, M.step s = .fault r → M.run (k + 1) s = .fault r) ∧
    (∀ r, M.step s = .refused r → M.run (k + 1) s = .refused r) := by
  refine ⟨fun t h => ?_, fun r h => ?_, fun r h => ?_⟩ <;> rw [Host.Core.run, h]

theorem run_eq_core_run (k : Nat) (s : State) : run k s = Host.Core.run Sys2Proof.core k s := by
  induction k generalizing s with
  | zero => rfl
  | succ k ih =>
    obtain ⟨hn, hf, hr⟩ := coreRun_succ Sys2Proof.core k s
    rw [run]
    cases hs : step s with
    | next t => exact (ih t).trans (hn t hs).symm
    | fault r => exact (hf r hs).symm
    | refused r => exact (hr r hs).symm

theorem run_one_of_next {s t : State} (h : step s = .next t) : run 1 s = .next t := by
  rw [run_succ_of_next h, run_zero]

theorem run_add {j : Nat} {s t : State} (h : run j s = .next t) (k : Nat) : run (j + k) s = run k t := by
  induction j generalizing s with
  | zero => rw [Nat.zero_add]; cases h; rfl
  | succ j ih =>
    obtain ⟨u, hs, hr⟩ := step_of_run_succ h
    rw [Nat.add_right_comm, run_succ_of_next hs, ih hr]

end Sys2Proof.Machine
end

