-- ==== Sys2Proof/Laws/PerInstr.lean ====
section
/-! SUPPORT. Statements made for every instruction, one lemma per constructor. The family `WordPort` says on which port an
instruction's word stands, and that the parity of a raw byte tells BYTE_PARITY_BAD from every other class (30_encoding.md
R71, R75, R77). -/

namespace Sys2Proof.Laws

open Sys2Proof.Machine (isByte parityBad)

/-- A byte class has a raw byte, parity-bad exactly for BYTE_PARITY_BAD; a command has a command word. -/
def WordPort.Statement (i : Instr) : Prop :=
  i.wellFormed = true →
    match encode i with
    | .raw r => isByte i = true ∧ (parityBad r ↔ ∃ p d, i = .byteParityBad p d)
    | .command _ => isByte i = false

namespace WordPort

/-- A byte class with an odd number of set bits. -/
theorem of_odd {i : Instr} {r : Raw} (he : encode i = .raw r) (hi : isByte i = true) (hr : ¬ parityBad r)
    (hn : ∀ p d, i ≠ .byteParityBad p d) : Statement i := by
  intro _
  rw [he]
  exact ⟨hi, fun h => absurd h hr, fun ⟨p, d, h⟩ => absurd h (hn p d)⟩

theorem byteParityBad (p : BitVec 1) (d : Val) : Statement (.byteParityBad p d) := by
  intro hw
  simp only [Instr.wellFormed, decide_eq_true_eq] at hw
  exact ⟨rfl, fun _ => ⟨p, d, rfl⟩, fun _ => hw⟩

theorem byteOther (p : BitVec 1) (d : Val) : Statement (.byteOther p d) := by
  intro hw
  have hodd := hw
  simp only [Instr.wellFormed, decide_eq_true_eq] at hodd
  exact of_odd rfl rfl hodd.1 (fun _ _ h => by cases h) hw

theorem byteStx : Statement .byteStx := of_odd rfl rfl (by decide) fun _ _ => nofun
theorem byteEtx : Statement .byteEtx := of_odd rfl rfl (by decide) fun _ _ => nofun
theorem byteLf : Statement .byteLf := of_odd rfl rfl (by decide) fun _ _ => nofun
theorem byteCr : Statement .byteCr := of_odd rfl rfl (by decide) fun _ _ => nofun
theorem byteTab : Statement .byteTab := of_odd rfl rfl (by decide) fun _ _ => nofun
theorem byteSp : Statement .byteSp := of_odd rfl rfl (by decide) fun _ _ => nofun
theorem reset : Statement .reset := fun _ => rfl
theorem poll : Statement .poll := fun _ => rfl
theorem detect : Statement .detect := fun _ => rfl
theorem detect1200 : Statement .detect1200 := fun _ => rfl
theorem detect9600 : Statement .detect9600 := fun _ => rfl

end WordPort

end Sys2Proof.Laws
end

