-- ==== Sys2Proof/Laws/Validate.lean ====
section
/-! SUPPORT. What Validate answers, over the list of valid bytes that the buffer holds (43_dataset_validation.md R170 to
R178). -/

namespace Sys2Proof.Machine

/-! ### Splitter positions -/

@[simp] theorem splitterPositions_nil (sp : Val) : splitterPositions sp [] = [] := rfl

theorem mem_splitterPositions {sp : Val} {vs : List Val} {i : Nat} :
    i ∈ splitterPositions sp vs ↔ vs[i]? = some sp := by
  simp only [splitterPositions, List.mem_filter, List.mem_range, beq_iff_eq, and_iff_right_iff_imp]
  exact fun h => (List.getElem?_eq_some_iff.mp h).1

/-- The positions stand in ascending order (R175). -/
theorem splitterPositions_ascending (sp : Val) (vs : List Val) : (splitterPositions sp vs).Pairwise (· < ·) :=
  List.Pairwise.filter _ List.pairwise_lt_range

theorem splitterPositions_append (sp : Val) (as bs : List Val) :
    splitterPositions sp (as ++ bs) = splitterPositions sp as ++ (splitterPositions sp bs).map (as.length + ·) := by
  simp only [splitterPositions, List.length_append, List.range_add, List.filter_append, List.filter_map]
  congr 1
  · refine List.filter_congr fun i hi => ?_
    rw [List.getElem?_append_left (List.mem_range.mp hi)]
  · congr 1
    refine List.filter_congr fun i _ => ?_
    simp [List.getElem?_append_right]

theorem splitterPositions_of_not_mem {sp : Val} {vs : List Val} (h : sp ∉ vs) : splitterPositions sp vs = [] := by
  refine List.eq_nil_iff_forall_not_mem.mpr fun i hi => h ?_
  exact List.mem_of_getElem? (mem_splitterPositions.mp hi)

theorem splitterPositions_singleton (sp : Val) : splitterPositions sp [sp] = [0] := by
  simp [splitterPositions]

theorem splitterPositions_cons_self (sp : Val) (vs : List Val) :
    splitterPositions sp (sp :: vs) = 0 :: (splitterPositions sp vs).map (1 + ·) := by
  have := splitterPositions_append sp [sp] vs
  rw [splitterPositions_singleton] at this
  simpa using this

/-- The number of positions is the number of occurrences (R175). -/
theorem length_splitterPositions (sp : Val) (vs : List Val) : (splitterPositions sp vs).length = vs.count sp := by
  induction vs with
  | nil => rfl
  | cons v vs ih =>
    have h := splitterPositions_append sp [v] vs
    rw [List.singleton_append] at h
    rw [h, List.length_append, List.length_map, ih]
    by_cases hv : v = sp
    · subst hv; rw [splitterPositions_singleton, List.count_cons_self]; simp [Nat.add_comm]
    · rw [splitterPositions_of_not_mem (by simpa using Ne.symm hv), List.count_cons_of_ne hv]; simp

/-! ### Extraction -/

/-- Everything the field count and the extraction can answer (R175, R176). -/
theorem extract_cases (body : List Val) (s : State) :
    ((splitterPositions s.split body).length ≠ 2 ∧ (splitterPositions s.split body).length ≠ 3 ∧
      extract body s = .next (s.errored .invalidFieldCount)) ∨
    ∃ first before last, first ∈ splitterPositions s.split body ∧ last ∈ splitterPositions s.split body ∧
      (∀ i ∈ splitterPositions s.split body, first ≤ i) ∧ before < last ∧
      extract body s = produce (between 0 first body) (between (before + 1) last body) s := by
  have hasc := splitterPositions_ascending s.split body
  unfold extract
  split
  · rename_i p0 p1 h
    rw [h] at hasc ⊢
    simp only [List.pairwise_cons, List.mem_singleton, forall_eq] at hasc
    exact .inr ⟨p0, p0, p1, by simp, by simp, by simp; omega, hasc.1, rfl⟩
  · rename_i p0 p1 p2 h
    rw [h] at hasc ⊢
    simp only [List.pairwise_cons, List.mem_cons, forall_eq_or_imp] at hasc
    exact .inr ⟨p0, p1, p2, by simp, by simp, by simp; omega, hasc.2.1.1, rfl⟩
  · rename_i h2 h3
    refine .inl ⟨fun h => ?_, fun h => ?_, rfl⟩
    · obtain ⟨a, b, hab⟩ := List.length_eq_two.mp h
      exact h2 _ _ hab
    · obtain ⟨a, b, c, habc⟩ := List.length_eq_three.mp h
      exact h3 _ _ _ habc

theorem length_between_le (lo hi : Nat) (vs : List Val) : (between lo hi vs).length ≤ hi - lo := by
  simp [between]; omega

/-! ### Validate -/

/-- The bytes the checksum covers, of a buffer that holds `body` and then the checksum byte (R172, R173). -/
def covered (split : Val) (body : List Val) : List Val :=
  if split = Ascii.sp then body.dropLast else body

/-- `checkAndExtract` over the list of valid bytes. -/
theorem checkAndExtract_of_holds {s : State} {body : List Val} {c : Val} (h : s.Holds (body ++ [c])) :
    checkAndExtract s = if checksum (covered s.split body) = c.toNat then extract body s
      else raiseError .invalidChecksum s := by
  have hlen : s.len = body.length + 1 := by simpa using h.1
  have hc : s.bufRead (s.len - 1) = some c := by rw [h.bufRead, hlen]; simp
  have hbody : s.bufSlice 0 (s.len - 1) = some body := by
    rw [h.bufSlice _ _ (by simp [hlen]), hlen]; simp
  have hcov : s.bufSlice 0 (checksumSpan s.split s.len) = some (covered s.split body) := by
    unfold checksumSpan covered
    split
    · rw [h.bufSlice _ _ (by simp; omega), List.drop_zero,
        List.take_append_of_le_length (by omega), List.dropLast_eq_take]
      congr 2; omega
    · exact hbody
  rw [checkAndExtract, hc, hcov, hbody]

/-- Everything Validate can answer on a buffer in order that holds at least one byte (R170). -/
theorem validate_cases {s : State} (hb : s.BufferOk) (h1 : 1 ≤ s.len) :
    (¬ isSplitter s.split ∧ validate s = .next (s.errored .invalidSplitter)) ∨
    (isSplitter s.split ∧ validate s = .next (s.errored .invalidChecksum)) ∨
    (isSplitter s.split ∧ validate s = .next (s.errored .invalidFieldCount)) ∨
    (isSplitter s.split ∧ ∃ tag data, validate s = produce tag data s ∧
      (∃ p, p + 1 < s.len ∧ s.cell p = some s.split) ∧
      (∀ t, t + 1 < s.len → s.cell t = some s.split → tag.length ≤ t) ∧ data.length + 3 ≤ s.len) := by
  unfold validate
  by_cases hs : isSplitter s.split
  · rw [if_pos hs]
    obtain ⟨vs, hh, hvs⟩ := hb.holds
    obtain ⟨body, c, rfl⟩ : ∃ body c, vs = body ++ [c] :=
      ⟨vs.dropLast, vs.getLast (by intro h; simp [h] at hvs; omega), (List.dropLast_append_getLast _).symm⟩
    have hlen : s.len = body.length + 1 := by simpa using hh.1
    rw [checkAndExtract_of_holds hh]
    split
    · rcases extract_cases body s with ⟨-, -, h⟩ | ⟨first, before, last, hf, hl, hmin, hlt, h⟩
      · exact .inr (.inr (.inl ⟨hs, h⟩))
      · have hfirst := mem_splitterPositions.mp hf
        have hflt := (List.getElem?_eq_some_iff.mp hfirst).1
        refine .inr (.inr (.inr ⟨hs, _, _, h, ⟨first, by omega, ?_⟩, fun t ht hct => ?_, ?_⟩))
        · rw [hh.cell (by omega), List.getElem?_append_left hflt, hfirst]
        · have hmem : t ∈ splitterPositions s.split body := by
            rw [mem_splitterPositions, ← hct, hh.cell (by omega), List.getElem?_append_left (by omega)]
          have := length_between_le 0 first body
          have := hmin t hmem
          omega
        · have := length_between_le (before + 1) last body
          have := (List.getElem?_eq_some_iff.mp (mem_splitterPositions.mp hl)).1
          omega
    · exact .inr (.inl ⟨hs, rfl⟩)
  · rw [if_neg hs]; exact .inl ⟨hs, rfl⟩

end Sys2Proof.Machine
end

