-- ==== Sys2Proof/Laws/RawByte.lean ====
section
/-! SUPPORT. Everything a byte step can answer, said once (42_framer_bytes.md R140 to R148). -/

namespace Sys2Proof.Machine

/-- What the byte step of `i` answers from state `s`: a constructor for each kind of entry in the transition table. -/
inductive ByteAnswer (i : Instr) (s : State) : Out → Prop where
  /-- The byte is ignored (AFS). -/
  | ignored (h : s.parser = .afs) : ByteAnswer i s (.next s)
  /-- STX in AFS. -/
  | frameStart (h : s.parser = .afs) : ByteAnswer i s (.next { s with parser := .adfe, len := 0 })
  /-- ETX in ADFE. -/
  | frameEnd (h : s.parser = .adfe) : ByteAnswer i s (.next { s with parser := .afs })
  /-- LF in ADFE. -/
  | datasetStart (h : s.parser = .adfe) : ByteAnswer i s (.next { s with parser := .pt, len := 0 })
  /-- A tag byte is stored. -/
  | tagByte (v : Val) (h : s.parser = .pt) (hv : i.wellFormed = true → ¬ isSplitter v) (hne : s.len ≠ Config.tagCap)
      (hl : s.len < s.cfg.bufCap) : ByteAnswer i s (.next (s.pushed v))
  /-- The first splitter is stored. -/
  | splitter (v : Val) (h : s.parser = .pt) (hv : isSplitter v) (hl : s.len < s.cfg.bufCap) :
      ByteAnswer i s (.next { s.pushed v with split := v, parser := .pd })
  /-- A data byte is stored. -/
  | dataByte (v : Val) (h : s.parser = .pd) (hl : s.len < s.cfg.bufCap) : ByteAnswer i s (.next (s.pushed v))
  /-- A dataset is produced, by CR alone. -/
  | produced (tag data : List Val) (hi : i = .byteCr) (h : s.parser = .pd) (hv : validate s = produce tag data s) :
      ByteAnswer i s (produce tag data s)
  /-- A decoder error; InvalidSplitter only in `PD` without a splitter. -/
  | error (k : ErrorKind) (hk : k ≠ .detectionFailed)
      (hs : k = .invalidSplitter → s.parser = .pd ∧ ¬ isSplitter s.split) : ByteAnswer i s (.next (s.errored k))
  /-- An append past the capacity: `LEN` is beyond what the rules reach. -/
  | appendFault (h : s.parser = .pt ∧ ¬ s.len < s.cfg.bufCap ∨ s.parser = .pd ∧ s.cfg.bufCap < s.len) :
      ByteAnswer i s (.fault .appendPastCapacity)
  /-- A read of a cell without a value: the buffer is not in order, or empty. -/
  | readFault (h : s.parser = .pd) (hb : ¬ (s.BufferOk ∧ 1 ≤ s.len)) : ByteAnswer i s (.fault .bufferNoValue)

theorem ByteAnswer.of_tagAppend {i : Instr} {s : State} {v : Val} (h : s.parser = .pt)
    (hv : i.wellFormed = true → ¬ isSplitter v) :
    ByteAnswer i s (tagAppend v s) := by
  rcases tagAppend_cases v s with ⟨-, e⟩ | ⟨hne, hl, e⟩ | ⟨-, hl, e⟩ <;> rw [e]
  · exact .error _ (by decide) nofun
  · exact .tagByte v h hv hne hl
  · exact .appendFault (.inl ⟨h, hl⟩)

theorem ByteAnswer.of_dataAppend {i : Instr} {s : State} {v : Val} (h : s.parser = .pd) :
    ByteAnswer i s (dataAppend v s) := by
  rcases dataAppend_cases v s with ⟨-, e⟩ | ⟨hl, e⟩ | ⟨hl, e⟩ <;> rw [e]
  · exact .error _ (by decide) nofun
  · exact .dataByte v h hl
  · exact .appendFault (.inr ⟨h, hl⟩)

theorem ByteAnswer.of_validate {s : State} (h : s.parser = .pd) : ByteAnswer .byteCr s (validate s) := by
  by_cases hb : s.BufferOk ∧ 1 ≤ s.len
  · rcases validate_cases hb.1 hb.2 with ⟨hs, e⟩ | ⟨-, e⟩ | ⟨-, e⟩ | ⟨-, tag, data, e, -⟩ <;> rw [e]
    · exact .error _ (by decide) fun _ => ⟨h, hs⟩
    · exact .error _ (by decide) nofun
    · exact .error _ (by decide) nofun
    · exact .produced tag data rfl h e
  · unfold validate
    split
    · unfold checkAndExtract
      split
      · split
        · split
          · rename_i body _
            rcases extract_cases body s with ⟨-, -, e⟩ | ⟨first, before, last, -, -, -, -, e⟩
            · rw [e]; exact .error _ (by decide) nofun
            · rw [e]
              refine .produced _ _ rfl h ?_
              unfold validate checkAndExtract
              simp only [*, if_true]
          · exact .readFault h hb
        · exact .error _ (by decide) nofun
      · exact .readFault h hb
    · exact .error _ (by decide) fun _ => ⟨h, ‹_›⟩

theorem ByteAnswer.of_splitterStep {i : Instr} {s : State} {v : Val} (hv : isSplitter v) :
    ByteAnswer i s (splitterStep v s) := by
  unfold splitterStep
  split
  · exact .ignored ‹_›
  · exact .error _ (by decide) nofun
  · rename_i h
    by_cases hl : s.len < s.cfg.bufCap
    · rw [append_of_lt v hl]; exact .splitter v h hv hl
    · rw [append_of_not_lt v hl]; exact .appendFault (.inl ⟨h, hl⟩)
  · exact .of_dataAppend ‹_›

/-- The one inversion lemma of the byte steps. -/
theorem exec_byte_answer {i : Instr} (hi : isByte i = true) (s : State) : ByteAnswer i s (exec i s) := by
  cases i with
  | byteParityBad p d => exact .error _ (by decide) nofun
  | byteStx =>
    simp only [exec, execByteStx]; split
    · exact .frameStart ‹_›
    · exact .error _ (by decide) nofun
    · exact .of_tagAppend ‹_› (fun _ => by decide)
    · exact .of_dataAppend ‹_›
  | byteEtx =>
    simp only [exec, execByteEtx]; split
    · exact .ignored ‹_›
    · exact .frameEnd ‹_›
    · exact .of_tagAppend ‹_› (fun _ => by decide)
    · exact .of_dataAppend ‹_›
  | byteLf =>
    simp only [exec, execByteLf]; split
    · exact .ignored ‹_›
    · exact .datasetStart ‹_›
    · exact .of_tagAppend ‹_› (fun _ => by decide)
    · exact .of_dataAppend ‹_›
  | byteCr =>
    simp only [exec, execByteCr]; split
    · exact .ignored ‹_›
    · exact .error _ (by decide) nofun
    · exact .of_tagAppend ‹_› (fun _ => by decide)
    · exact .of_validate ‹_›
  | byteTab => exact .of_splitterStep (by decide)
  | byteSp => exact .of_splitterStep (by decide)
  | byteOther p d =>
    have hd (hw : (Instr.byteOther p d).wellFormed = true) : ¬ isSplitter d := by
      simp only [Instr.wellFormed, decide_eq_true_eq] at hw
      exact fun h => hw.2 (.inr (.inr (.inr (.inr h))))
    simp only [exec, execByteOther]; split
    · exact .ignored ‹_›
    · exact .error _ (by decide) nofun
    · exact .of_tagAppend ‹_› hd
    · exact .of_dataAppend ‹_›
  | reset => cases hi
  | poll => cases hi
  | detect => cases hi
  | detect1200 => cases hi
  | detect9600 => cases hi

end Sys2Proof.Machine
end

