-- ==== Sys2Proof/Laws/Source.lean ====
section
/-! SUPPORT. A byte step does not see the byte source: with other bytes behind it, it answers the same, and they stay behind
it (41_poll_and_reset.md R121, 60_exceptions.md R211). -/

namespace Sys2Proof.Machine

/-- The state with another byte source. -/
abbrev State.withSource (q : List Raw) (s : State) : State :=
  { s with source := q }

/-- An answer with its next state changed. -/
def mapNext (f : State → State) : Out → Out
  | .next s => .next (f s)
  | .fault r => .fault r
  | .refused r => .refused r

@[simp] theorem mapNext_next (f : State → State) (s : State) : mapNext f (.next s) = .next (f s) := rfl
@[simp] theorem mapNext_fault (f : State → State) (r : Fault) : mapNext f (.fault r) = .fault r := rfl

theorem bufSlice_withSource (q : List Raw) (s : State) (lo n : Nat) :
    (s.withSource q).bufSlice lo n = s.bufSlice lo n := by
  induction n generalizing lo with
  | zero => rfl
  | succ n ih => simp only [State.bufSlice, ih]; rfl

theorem tagAppend_withSource (v : Val) (q : List Raw) (s : State) :
    tagAppend v (s.withSource q) = mapNext (State.withSource q) (tagAppend v s) := by
  simp only [tagAppend, State.append]
  by_cases h : s.len = Config.tagCap
  · simp only [h, if_true]; rfl
  · by_cases hl : s.len < s.cfg.bufCap <;> simp only [h, hl, if_true, if_false] <;> rfl

theorem dataAppend_withSource (v : Val) (q : List Raw) (s : State) :
    dataAppend v (s.withSource q) = mapNext (State.withSource q) (dataAppend v s) := by
  simp only [dataAppend, State.append]
  by_cases h : s.len = s.cfg.bufCap
  · simp only [h, if_true]; rfl
  · by_cases hl : s.len < s.cfg.bufCap <;> simp only [h, hl, if_true, if_false] <;> rfl

theorem extract_withSource (body : List Val) (q : List Raw) (s : State) :
    extract body (s.withSource q) = mapNext (State.withSource q) (extract body s) := by
  rcases hp : splitterPositions s.split body with _ | ⟨a, _ | ⟨b, _ | ⟨c, _ | _⟩⟩⟩ <;> simp only [extract, hp] <;> rfl

theorem checkAndExtract_withSource (q : List Raw) (s : State) :
    checkAndExtract (s.withSource q) = mapNext (State.withSource q) (checkAndExtract s) := by
  have hr (i : Nat) : (s.withSource q).bufRead i = s.bufRead i := rfl
  unfold checkAndExtract
  simp only [bufSlice_withSource, hr]
  rcases s.bufRead (s.len - 1) with _ | c
  · rfl
  · rcases s.bufSlice 0 (checksumSpan s.split s.len) with _ | span
    · rfl
    · by_cases hc : checksum span = c.toNat
      · rcases s.bufSlice 0 (s.len - 1) with _ | body
        · simp only [hc, if_true]; rfl
        · simp only [hc, if_true]; exact extract_withSource body q s
      · simp only [hc, if_false]; rfl

theorem validate_withSource (q : List Raw) (s : State) :
    validate (s.withSource q) = mapNext (State.withSource q) (validate s) := by
  unfold validate
  by_cases h : isSplitter s.split
  · rw [if_pos h, if_pos h]; exact checkAndExtract_withSource q s
  · rw [if_neg h, if_neg h]; rfl

theorem splitterStep_withSource (v : Val) (q : List Raw) (s : State) :
    splitterStep v (s.withSource q) = mapNext (State.withSource q) (splitterStep v s) := by
  simp only [splitterStep]
  split
  · rfl
  · rfl
  · simp only [State.append]
    by_cases hl : s.len < s.cfg.bufCap <;> simp only [hl, if_true, if_false] <;> rfl
  · exact dataAppend_withSource v q s

theorem exec_byte_withSource {i : Instr} (hi : isByte i = true) (q : List Raw) (s : State) :
    exec i (s.withSource q) = mapNext (State.withSource q) (exec i s) := by
  cases i with
  | byteParityBad p d => rfl
  | byteStx =>
    simp only [exec, execByteStx]; split
    · rfl
    · rfl
    · exact tagAppend_withSource _ q s
    · exact dataAppend_withSource _ q s
  | byteEtx =>
    simp only [exec, execByteEtx]; split
    · rfl
    · rfl
    · exact tagAppend_withSource _ q s
    · exact dataAppend_withSource _ q s
  | byteLf =>
    simp only [exec, execByteLf]; split
    · rfl
    · rfl
    · exact tagAppend_withSource _ q s
    · exact dataAppend_withSource _ q s
  | byteCr =>
    simp only [exec, execByteCr]; split
    · rfl
    · rfl
    · exact tagAppend_withSource _ q s
    · exact validate_withSource q s
  | byteTab => exact splitterStep_withSource _ q s
  | byteSp => exact splitterStep_withSource _ q s
  | byteOther p d =>
    simp only [exec, execByteOther]; split
    · rfl
    · rfl
    · exact tagAppend_withSource _ q s
    · exact dataAppend_withSource _ q s
  | reset => cases hi
  | poll => cases hi
  | detect => cases hi
  | detect1200 => cases hi
  | detect9600 => cases hi

end Sys2Proof.Machine
end

