-- ==== Sys2Proof/Laws/Step.lean ====
section
/-! SUPPORT. Everything one step can answer, said once: a wait, a command, a byte step, the end of a drain, a turn of
DETECT. -/

namespace Sys2Proof.Machine

/-- Everything a turn of a running DETECT can answer (40_baud_detector.md R100 to R107). -/
theorem detectTurn_cases (s : State) :
    (∃ m k, s.min = some m ∧ s.idx = some k ∧ k < Config.nSamples ∧ s.line.head none = none ∧
      detectTurn s = .next { s with line := s.line.rest }) ∨
    (∃ m k d, s.min = some m ∧ s.idx = some k ∧ k < Config.nSamples ∧ s.line.head none = some d ∧
      detectTurn s = .next { s with line := s.line.rest, min := some (m.lower d), idx := some (k + 1) }) ∨
    (∃ m k, s.min = some m ∧ s.idx = some k ∧ ¬ k < Config.nSamples ∧
      detectTurn s = .next ({ s with min := none, idx := none }.finished (classify m))) ∨
    ((s.min = none ∨ s.idx = none) ∧ detectTurn s = .fault .detectorNoValue) := by
  unfold detectTurn
  split
  · rename_i m k hm hk
    split
    · rename_i hlt
      unfold sample
      split
      · exact .inl ⟨m, k, hm, hk, hlt, ‹_›, rfl⟩
      · exact .inr (.inl ⟨m, k, _, hm, hk, hlt, ‹_›, rfl⟩)
    · exact .inr (.inr (.inl ⟨m, k, hm, hk, ‹_›, rfl⟩))
  · rename_i h
    refine .inr (.inr (.inr ⟨?_, rfl⟩))
    cases hm : s.min with
    | none => exact .inl rfl
    | some m =>
      cases hk : s.idx with
      | none => exact .inr rfl
      | some k => exact absurd hk (h m k hm)

theorem inWindow_eq_true (w : Nat × Nat) (m : Nat) : inWindow w m = true ↔ w.1 ≤ m ∧ m ≤ w.2 := by
  simp [inWindow]

/-- The two closed windows (R104). -/
theorem classify_us (m : Nat) :
    classify (.us m) = if 666 ≤ m ∧ m ≤ 1000 then .rate .b1200
      else if 83 ≤ m ∧ m ≤ 125 then .rate .b9600 else .error .detectionFailed := by
  simp only [classify, inWindow_eq_true]
  rfl

/-- The classification never names a decoder error (R104, R105). -/
theorem classify_cases (m : PulseMin) : (∃ r, classify m = .rate r) ∨ classify m = .error .detectionFailed := by
  cases m with
  | inf => exact .inr rfl
  | us m =>
    rw [classify_us]
    split
    · exact .inl ⟨_, rfl⟩
    · split
      · exact .inl ⟨_, rfl⟩
      · exact .inr rfl

/-- Where one step leads, with what it starts from: the inversion lemma of `step`. -/
inductive StepAnswer (s : State) : Out → Prop where
  | illFormed (h : ¬ s.cfg.wf) : StepAnswer s (.refused (.illFormedConfig s.cfg.bufCap))
  | waits (h : s.activity = .idle) (hc : s.commands.head none = none) :
      StepAnswer s (.next { s.deliver with commands := s.commands.rest })
  | command (w : CmdWord) (i : Instr) (h : s.activity = .idle) (hc : s.commands.head none = some w)
      (hd : decodeCommand w = .instr i) (hi : i ∈ [Instr.reset, .poll, .detect, .detect1200, .detect9600]) :
      StepAnswer s (exec i { s.deliver with commands := s.commands.rest, outcome := none })
  | reserved (w : CmdWord) (h : s.activity = .idle) (hc : s.commands.head none = some w)
      (hd : decodeCommand w = .reservedCommand w) : StepAnswer s (.refused (.reservedCommand w))
  | drained (h : s.activity = .polling) (hq : s.source ++ s.arrivals.head [] = []) :
      StepAnswer s (.next (s.deliver.finished .empty))
  | byte (r : Raw) (q : List Raw) (h : s.activity = .polling) (hq : s.source ++ s.arrivals.head [] = r :: q) :
      StepAnswer s (exec (decodeByte r) { s.deliver with source := q })
  | detects (h : s.activity = .detecting) : StepAnswer s (detectTurn s.deliver)

theorem step_answer (s : State) : StepAnswer s (step s) := by
  unfold step
  by_cases hw : s.cfg.wf
  · rw [if_pos hw, turn]
    cases ha : s.activity with
    | idle =>
      simp only [idleTurn, State.deliver_commands]
      cases hc : s.commands.head none with
      | none => exact .waits ha hc
      | some w =>
        rcases decodeCommand_cases w with ⟨i, hi, hd⟩ | hd
        · simp only [hd]; exact .command w i ha hc hd hi
        · simp only [hd]; exact .reserved w ha hc hd
    | polling =>
      simp only [pollTurn, State.deliver_source]
      cases hq : s.source ++ s.arrivals.head [] with
      | nil => exact .drained ha hq
      | cons r q => exact .byte r q ha hq
    | detecting => exact .detects ha
  · rw [if_neg hw]; exact .illFormed hw

end Sys2Proof.Machine
end

