-- ==== Sys2Proof/Tests/Slice0.lean ====
section
/-! SUPPORT. The model's own tests: the well-formedness check, decoding, one step per vector of 95_test_vectors.md, and a
witness for the hypotheses of each statement. Expected results come from the spec's tables. -/

namespace Sys2Proof.Tests

open Sys2Proof.Machine

/-! ### Helpers -/

/-- A polling block in parser state `p` whose buffer holds `vs`. -/
def parserAt (p : ParserState) (vs : List Val) (split : Val) : State :=
  { State.reset with
    parser := p, len := vs.length, split := split, activity := .polling
    buf := vs.map some ++ List.replicate (37 - vs.length) none }

/-- The same with these bytes in the source. -/
def fed (s : State) (q : List Raw) : State := { s with source := q }

/-- An idle block whose host issues `w`. -/
def told (s : State) (w : CmdWord) : State := { s with activity := .idle, commands := ⟨[some w], []⟩ }

/-- A block that detects, with this minimum and sample count, and these pulses to come. -/
def detectingAt (m : PulseMin) (k : Nat) (pulses : List (Option Nat)) : State :=
  { State.reset with activity := .detecting, min := some m, idx := some k, line := ⟨pulses, []⟩ }

/-- The answer is a next state, with this property. -/
def nextIs (o : Out) (p : State → Bool) : Bool :=
  match o with
  | .next t => p t
  | .fault _ => false
  | .refused _ => false

/-- The answer is the error entry of `k`, with these bytes left in the source. -/
def failsWith (o : Out) (k : ErrorKind) (left : List Raw) : Bool :=
  nextIs o fun t => t.outcome == some (.error k) && t.parser == .afs && t.len == 0 && t.split == 0#7 &&
    t.buf == List.replicate 37 none && t.activity == .idle && t.source == left

/-- POLL goes on in parser state `p`, with `vs` in the buffer. -/
def goesOn (o : Out) (p : ParserState) (vs : List Val) (split : Val) : Bool :=
  nextIs o fun t => t.parser == p && t.len == vs.length && t.buf.take vs.length == vs.map some && t.split == split &&
    t.activity == .polling && t.outcome == none

/-- "AB", "AB 1", "ABCDEFGH", "T " and 35 times "X". -/
def ab : List Val := [0x41#7, 0x42#7]
def ab1 : List Val := [0x41#7, 0x42#7, 0x20#7, 0x31#7]
def tag8 : List Val := [0x41#7, 0x42#7, 0x43#7, 0x44#7, 0x45#7, 0x46#7, 0x47#7, 0x48#7]
def full : List Val := [0x54#7, 0x20#7] ++ List.replicate 35 0x58#7

/-- The buffers of V-VAL-01, V-VAL-12 and V-VAL-07 at CR. -/
def val01 : List Val :=
  [0x41#7, 0x44#7, 0x43#7, 0x4F#7, 0x20#7, 0x31#7, 0x32#7, 0x33#7, 0x34#7, 0x35#7] ++
    [0x36#7, 0x37#7, 0x38#7, 0x39#7, 0x30#7, 0x31#7, 0x32#7, 0x20#7, 0x47#7]
def val12 : List Val := [0x41#7, 0x20#7, 0x42#7, 0x20#7, 0x58#7, 0x59#7, 0x3B#7]
def val07 : List Val :=
  [0x44#7, 0x41#7, 0x54#7, 0x45#7, 0x09#7, 0x45#7, 0x30#7, 0x39#7, 0x30#7, 0x31#7, 0x30#7, 0x31#7] ++
    [0x30#7, 0x30#7, 0x30#7, 0x30#7, 0x30#7, 0x30#7, 0x09#7, 0x31#7, 0x32#7, 0x33#7, 0x09#7, 0x3F#7]

/-! ### Well-formedness: an ill-formed term for each check -/

theorem test_wf_parity_bad_with_good_parity : (Instr.byteParityBad 0#1 0x02#7).wellFormed = false := by decide
theorem test_wf_other_with_bad_parity : (Instr.byteOther 0#1 0x41#7).wellFormed = false := by decide
theorem test_wf_other_with_named_value : (Instr.byteOther 0#1 0x02#7).wellFormed = false := by decide
theorem test_wf_other_with_splitter : (Instr.byteOther 1#1 0x09#7).wellFormed = false := by decide
theorem test_wf_config_too_small : ¬ (Config.mk 8).wf := by decide
theorem test_wf_accepts : (Instr.byteParityBad 1#1 0x02#7).wellFormed = true ∧
    (Instr.byteOther 1#1 0x41#7).wellFormed = true ∧ (Config.mk 9).wf ∧ Config.hardware.wf := by decide

/-! ### Decoding: words written out from R75 and R77 -/

theorem test_decode_parity_bad : decode (.raw 0b10000010#8) = .instr (.byteParityBad 1#1 0b0000010#7) := by decide
theorem test_decode_stx : decode (.raw 0b00000010#8) = .instr .byteStx := by decide
theorem test_decode_etx : decode (.raw 0b10000011#8) = .instr .byteEtx := by decide
theorem test_decode_lf : decode (.raw 0b10001010#8) = .instr .byteLf := by decide
theorem test_decode_cr : decode (.raw 0b00001101#8) = .instr .byteCr := by decide
theorem test_decode_tab : decode (.raw 0b10001001#8) = .instr .byteTab := by decide
theorem test_decode_sp : decode (.raw 0b00100000#8) = .instr .byteSp := by decide
theorem test_decode_other : decode (.raw 0b11000001#8) = .instr (.byteOther 1#1 0b1000001#7) := by decide
theorem test_decode_commands :
    decode (.command 0b0000#4) = .instr .reset ∧ decode (.command 0b0001#4) = .instr .poll ∧
    decode (.command 0b0010#4) = .instr .detect ∧ decode (.command 0b0110#4) = .instr .detect1200 ∧
    decode (.command 0b1010#4) = .instr .detect9600 := by decide
/-- 95_test_vectors.md section 2.8: the 11 refused words. -/
theorem test_decode_reserved :
    [0x3#4, 0x4#4, 0x5#4, 0x7#4, 0x8#4, 0x9#4, 0xB#4, 0xC#4, 0xD#4, 0xE#4, 0xF#4].map decodeCommand =
      [0x3#4, 0x4#4, 0x5#4, 0x7#4, 0x8#4, 0x9#4, 0xB#4, 0xC#4, 0xD#4, 0xE#4, 0xF#4].map Decoded.reservedCommand := by
  decide
theorem test_spelling : commandWord "RESET" = some 0x0#4 ∧ commandWord "DETECT 9600" = some 0xA#4 := by decide
/-- The table of R74. -/
theorem test_valid_raw_table :
    (List.range 128).map (fun n => (validRaw (BitVec.ofNat 7 n)).toNat) =
      [0x80, 0x01, 0x02, 0x83, 0x04, 0x85, 0x86, 0x07, 0x08, 0x89, 0x8A, 0x0B, 0x8C, 0x0D, 0x0E, 0x8F] ++
      [0x10, 0x91, 0x92, 0x13, 0x94, 0x15, 0x16, 0x97, 0x98, 0x19, 0x1A, 0x9B, 0x1C, 0x9D, 0x9E, 0x1F] ++
      [0x20, 0xA1, 0xA2, 0x23, 0xA4, 0x25, 0x26, 0xA7, 0xA8, 0x29, 0x2A, 0xAB, 0x2C, 0xAD, 0xAE, 0x2F] ++
      [0xB0, 0x31, 0x32, 0xB3, 0x34, 0xB5, 0xB6, 0x37, 0x38, 0xB9, 0xBA, 0x3B, 0xBC, 0x3D, 0x3E, 0xBF] ++
      [0x40, 0xC1, 0xC2, 0x43, 0xC4, 0x45, 0x46, 0xC7, 0xC8, 0x49, 0x4A, 0xCB, 0x4C, 0xCD, 0xCE, 0x4F] ++
      [0xD0, 0x51, 0x52, 0xD3, 0x54, 0xD5, 0xD6, 0x57, 0x58, 0xD9, 0xDA, 0x5B, 0xDC, 0x5D, 0x5E, 0xDF] ++
      [0xE0, 0x61, 0x62, 0xE3, 0x64, 0xE5, 0xE6, 0x67, 0x68, 0xE9, 0xEA, 0x6B, 0xEC, 0x6D, 0x6E, 0xEF] ++
      [0x70, 0xF1, 0xF2, 0x73, 0xF4, 0x75, 0x76, 0xF7, 0xF8, 0x79, 0x7A, 0xFB, 0x7C, 0xFD, 0xFE, 0x7F] := by
  decide +kernel

/-! ### One step per vector -/

/-- V-PAR-01. -/
theorem test_parity_bad_in_afs : failsWith (step (fed (parserAt .afs [] 0#7) [0x82#8, 0x02#8])) .parityError [0x02#8] := by
  decide
/-- V-PAR-07, the first byte. -/
theorem test_parity_bad_in_pt :
    failsWith (step (fed (parserAt .pt ab 0#7) [0xC3#8, 0x83#8])) .parityError [0x83#8] := by decide
/-- V-BYT-01. -/
theorem test_stx_in_afs : goesOn (step (fed (parserAt .afs [] 0#7) [0x02#8])) .adfe [] 0#7 := by decide
/-- V-BYT-36. -/
theorem test_stx_in_full_pd : failsWith (step (fed (parserAt .pd full 0x20#7) [0x02#8])) .datasetTooLong [] := by decide
/-- V-BYT-09. -/
theorem test_etx_in_adfe : goesOn (step (fed (parserAt .adfe [] 0#7) [0x83#8])) .afs [] 0#7 := by decide
/-- V-BYT-16. -/
theorem test_etx_in_pt : goesOn (step (fed (parserAt .pt ab 0#7) [0x83#8])) .pt (ab ++ [0x03#7]) 0#7 := by decide
/-- R143's example: stale bytes are dropped at LF. -/
theorem test_lf_in_adfe : goesOn (step (fed (parserAt .adfe val12 0x20#7) [0x8A#8])) .pt [] 0x20#7 := by decide
/-- V-BYT-24. -/
theorem test_lf_in_full_pt : failsWith (step (fed (parserAt .pt tag8 0#7) [0x8A#8])) .tagTooLong [] := by decide
/-- V-VAL-01. -/
theorem test_cr_produces :
    nextIs (step (fed (parserAt .pd val01 0x20#7) [0x0D#8, 0x83#8])) (fun t =>
      t.outcome == some (.produced [0x41#7, 0x44#7, 0x43#7, 0x4F#7]
        [0x31#7, 0x32#7, 0x33#7, 0x34#7, 0x35#7, 0x36#7, 0x37#7, 0x38#7, 0x39#7, 0x30#7, 0x31#7, 0x32#7]) &&
      t.parser == .adfe && t.len == 19 && t.split == 0x20#7 && t.source == [0x83#8]) := by decide
/-- V-VAL-08: the one buffered byte is its own checksum, and no field is counted. -/
theorem test_cr_one_byte : failsWith (step (fed (parserAt .pd [0x20#7] 0x20#7) [0x0D#8])) .invalidFieldCount [] := by
  decide
/-- V-BYT-26. -/
theorem test_tab_behind_full_tag :
    goesOn (step (fed (parserAt .pt tag8 0#7) [0x89#8])) .pd (tag8 ++ [0x09#7]) 0x09#7 := by decide
/-- V-BYT-33: the other splitter is a data byte. -/
theorem test_tab_in_pd : goesOn (step (fed (parserAt .pd ab1 0x20#7) [0x89#8])) .pd (ab1 ++ [0x09#7]) 0x20#7 := by decide
/-- V-BYT-20. -/
theorem test_sp_in_pt : goesOn (step (fed (parserAt .pt ab 0#7) [0x20#8])) .pd (ab ++ [0x20#7]) 0x20#7 := by decide
/-- V-BYT-13. -/
theorem test_sp_in_adfe : failsWith (step (fed (parserAt .adfe [] 0#7) [0x20#8])) .unexpectedByte [] := by decide
/-- V-BYT-21. -/
theorem test_other_in_pt : goesOn (step (fed (parserAt .pt ab 0#7) [0xDA#8])) .pt (ab ++ [0x5A#7]) 0#7 := by decide
/-- V-BYT-28. -/
theorem test_other_in_full_pt : failsWith (step (fed (parserAt .pt tag8 0#7) [0xDA#8])) .tagTooLong [] := by decide
/-- V-RST-02. -/
theorem test_reset_drops_dataset :
    nextIs (step (told (fed (parserAt .pd ab1 0x20#7) [0xB5#8]) 0x0#4)) (fun t =>
      t.outcome == some .empty && t.parser == .afs && t.len == 0 && t.split == 0#7 &&
      t.buf == List.replicate 37 none && t.source == [0xB5#8] && t.activity == .idle) := by decide
/-- P2: a POLL in the middle of a tag begins without touching the parser. -/
theorem test_poll_begins : goesOn (step (told (parserAt .pt ab 0#7) 0x1#4)) .pt ab 0#7 := by decide
/-- V-POL-01, the drain of an empty source. -/
theorem test_poll_empty_source :
    nextIs (step (parserAt .pd ab1 0x20#7)) (fun t =>
      t.outcome == some .empty && t.activity == .idle && t.parser == .pd && t.len == 4) := by decide
/-- P4: the second sample, 210, leaves MIN at 105. -/
theorem test_detect_sample :
    nextIs (step (detectingAt (.us 105) 1 [some 210, some 104])) (fun t =>
      t.min == some (.us 105) && t.idx == some 2 && t.line.coming == [some 104]) := by decide
/-- V-DET-08: 126 is in neither window. -/
theorem test_detect_fails_at_126 :
    nextIs (step { detectingAt (.us 126) 10 [] with parser := .pd }) (fun t =>
      t.outcome == some (.error .detectionFailed) && t.min == none && t.idx == none && t.parser == .pd) := by decide
/-- V-DET-18. -/
theorem test_detect1200 :
    nextIs (step (told State.reset 0x6#4)) (fun t => t.outcome == some (.rate .b1200) && t.min == none) := by decide
/-- V-DET-02. -/
theorem test_detect9600 :
    nextIs (step (told State.reset 0xA#4)) (fun t => t.outcome == some (.rate .b9600) && t.activity == .idle) := by decide
/-- Where the host places a word: a raw byte is polled, a command is taken. -/
theorem test_with_fetch_word :
    goesOn (step (State.reset.withFetchWord 8 0xDA)) .afs [] 0#7 = true ∧
    nextIs (step (State.reset.withFetchWord 8 0xA)) (fun t => t.outcome == some (.rate .b9600)) = true ∧
    decodeTableWord 8 0x8A = some .byteLf ∧ decodeTableWord 8 0x0D = some .byteCr ∧
    decodeTableWord 8 0x1 = some .poll ∧ decodeTableWord 4 0x3 = none := by decide

/-! ### Witnesses: states and operands that meet the hypotheses of each statement -/

theorem witness_DecodeOfEncodeIsIdentity : (Instr.byteOther 1#1 0x41#7).wellFormed = true := by decide

theorem witness_EncodeOfDecodeIsIdentity : decode (.command 0x6#4) = .instr .detect1200 := by decide

theorem witness_ByteClassFollowsParityAndValue :
    popcount (0x82#8 : Raw) % 2 = 0 ∧
    [0x02#8, 0x83#8, 0x8A#8, 0x0D#8, 0x89#8, 0x20#8, 0x80#8, 0x7F#8].map (fun r : Raw => (popcount r % 2, strip r)) =
      [(1, 0x02#7), (1, 0x03#7), (1, 0x0A#7), (1, 0x0D#7), (1, 0x09#7), (1, 0x20#7), (1, 0x00#7), (1, 0x7F#7)] := by
  decide

theorem witness_CommandDecodingIsTotal :
    (told State.reset 0x3#4).cfg.wf ∧ (told State.reset 0x3#4).activity = .idle ∧
      (told State.reset 0x3#4).commands.head none = some 0x3#4 := by decide

theorem witness_OutcomeRecordCodes : tag8.length ≤ 8 ∧ (List.replicate 34 0x58#7 : List Val).length ≤ 34 := by decide

theorem witness_StepRunsTheDecodedCommand :
    (told State.reset 0x1#4).cfg.wf ∧ (told State.reset 0x1#4).activity = .idle ∧
      (told State.reset 0x1#4).commands.head none = some 0x1#4 ∧ decode (.command 0x1#4) = .instr .poll := by decide

theorem witness_StepRunsTheDecodedByte :
    (fed (parserAt .pt ab 0#7) [0xDA#8]).cfg.wf ∧ (fed (parserAt .pt ab 0#7) [0xDA#8]).activity = .polling ∧
      (fed (parserAt .pt ab 0#7) [0xDA#8]).source ++ (fed (parserAt .pt ab 0#7) [0xDA#8]).arrivals.head [] = 0xDA#8 :: [] :=
  by decide

theorem witness_PollOfEmptySourceReturnsEmpty :
    (parserAt .pt ab 0#7).cfg.wf ∧ (parserAt .pt ab 0#7).activity = .polling ∧
      (parserAt .pt ab 0#7).source ++ (parserAt .pt ab 0#7).arrivals.head [] = [] := by decide

theorem witness_IdleBlockWaitsForACommand :
    State.reset.cfg.wf ∧ State.reset.activity = .idle ∧ State.reset.commands.head none = none := by decide

theorem witness_SmallBufferIsRefused : ({ State.reset with cfg := ⟨8⟩ } : State).cfg.bufCap < 9 := by decide

theorem witness_DetectTakesASample :
    (detectingAt .inf 0 [some 104]).cfg.wf ∧ (detectingAt .inf 0 [some 104]).activity = .detecting ∧
      (detectingAt .inf 0 [some 104]).line.head none = some 104 ∧ (0 < 10) ∧
      (detectingAt (.us 105) 9 [some 104]).line.head none = some 104 ∧ (9 < 10) := by decide

theorem witness_DetectWaitsForTheLine :
    (detectingAt .inf 0 [none]).cfg.wf ∧ (detectingAt .inf 0 [none]).activity = .detecting ∧
      (detectingAt .inf 0 [none]).line.head none = none := by decide

/-- The states of `DetectClassifiesTheMinimum` at the boundaries of R108, and that no width lies in both windows. -/
theorem witness_DetectClassifiesTheMinimum :
    (∀ m ∈ [0, 82, 83, 125, 126, 665, 666, 1000, 1001],
      (detectingAt (.us m) 10 []).cfg.wf ∧ (detectingAt (.us m) 10 []).activity = .detecting ∧
        (detectingAt (.us m) 10 []).min = some (.us m) ∧ (detectingAt (.us m) 10 []).idx = some 10) ∧
    ∀ m : Nat, ¬ ((666 ≤ m ∧ m ≤ 1000) ∧ (83 ≤ m ∧ m ≤ 125)) :=
  ⟨by decide, fun m => by omega⟩

/-- W3a. -/
def w3a : List Nat := [208, 104, 95, 312, 104, 208, 416, 104, 95, 520]

theorem witness_DetectOfTenPulsesClassifiesTheSmallest :
    w3a.length = 10 ∧ 95 ∈ w3a ∧ (∀ d ∈ w3a, 95 ≤ d) ∧
      ∃ s : State, s.cfg.wf ∧ s.activity = .idle ∧ s.commands.coming = some 0x2#4 :: [] ∧
        s.line.coming = w3a.map some ++ [] :=
  ⟨by decide, by decide, by decide, { told State.reset 0x2#4 with line := ⟨w3a.map some, []⟩ }, by decide, rfl, rfl, rfl⟩

theorem witness_DetectOnASilentLineNeverEnds :
    (detectingAt (.us 833) 3 []).cfg.wf ∧ (detectingAt (.us 833) 3 []).activity = .detecting ∧
      (detectingAt (.us 833) 3 []).line = .silent ∧ (3 < 10) := by decide

theorem witness_DetectLeavesParserAndSourceAlone :
    nextIs (step (detectingAt .inf 0 [some 104])) (fun _ => true) ∧
      nextIs (exec .detect State.reset) (fun _ => true) := by decide

theorem witness_ParityBadByteEndsPoll :
    (fed (parserAt .pd ab1 0x20#7) [0x0A#8]).cfg.wf ∧ (fed (parserAt .pd ab1 0x20#7) [0x0A#8]).activity = .polling ∧
      popcount (0x0A#8 : Raw) % 2 = 0 := by decide

/-- One state for each clause of the byte-step statements, at the ends of the ranges of `LEN`. -/
theorem witness_byte_steps :
    Config.hardware.wf ∧ (parserAt .afs [] 0#7).parser = .afs ∧ (parserAt .adfe [] 0#7).parser = .adfe ∧
    ((parserAt .pt tag8 0#7).parser = .pt ∧ (parserAt .pt tag8 0#7).len = 8) ∧
    ((parserAt .pt [] 0#7).parser = .pt ∧ (parserAt .pt [] 0#7).len < 8) ∧
    ((parserAt .pt (tag8.take 7) 0#7).parser = .pt ∧ (parserAt .pt (tag8.take 7) 0#7).len < 8) ∧
    ((parserAt .pd full 0x20#7).parser = .pd ∧ (parserAt .pd full 0x20#7).len = (parserAt .pd full 0x20#7).cfg.bufCap) ∧
    ((parserAt .pd [0x20#7] 0x20#7).parser = .pd ∧
      (parserAt .pd [0x20#7] 0x20#7).len < (parserAt .pd [0x20#7] 0x20#7).cfg.bufCap) ∧
    ((parserAt .pd (full.take 36) 0x20#7).parser = .pd ∧
      (parserAt .pd (full.take 36) 0x20#7).len < (parserAt .pd (full.take 36) 0x20#7).cfg.bufCap) := by decide

theorem witness_SplitterStep : (Instr.byteSp, 0x20#7) ∈ [(Instr.byteTab, 0x09#7), (.byteSp, 0x20#7)] := by decide

theorem witness_OtherByteStep :
    popcount (0xDA#8 : Raw) % 2 = 1 ∧ strip 0xDA#8 ∉ [0x02#7, 0x03#7, 0x09#7, 0x0A#7, 0x0D#7, 0x20#7] := by decide

theorem witness_ByteStepFrame :
    isByte .byteStx = true ∧ nextIs (exec .byteStx (parserAt .pt ab 0#7)) (fun _ => true) := by decide

theorem witness_ByteStepWritesOnlyTheNextCell :
    isByte .byteStx = true ∧ (parserAt .pt ab 0#7).activity = .polling ∧
      nextIs (exec .byteStx (parserAt .pt ab 0#7)) (fun t => t.activity == .polling) ∧
      (0 ≠ (parserAt .pt ab 0#7).len) := by decide

theorem witness_InvalidSplitterIsDefined :
    (parserAt .pd ab 0#7).parser = .pd ∧ (parserAt .pd ab 0#7).split ≠ 0x09#7 ∧ (parserAt .pd ab 0#7).split ≠ 0x20#7 := by
  decide

/-- V-VAL-05 and V-VAL-03: the checksum 0x48 under SPACE, 0x21 under TAB. -/
theorem witness_CrRaisesInvalidChecksumOnMismatch :
    ((parserAt .pd (val01.dropLast ++ [0x48#7]) 0x20#7).Holds (val01.dropLast ++ [0x48#7]) ∧
      (val01.dropLast.dropLast.map BitVec.toNat).sum % 64 + 0x20 ≠ (0x48#7 : Val).toNat) ∧
    ((parserAt .pd (val07.dropLast ++ [0x21#7]) 0x09#7).Holds (val07.dropLast ++ [0x21#7]) ∧
      (val07.dropLast.map BitVec.toNat).sum % 64 + 0x20 ≠ (0x21#7 : Val).toNat) := by decide

/-- V-VAL-19 (one splitter) and V-VAL-13 (four splitters). -/
theorem witness_CrRaisesInvalidFieldCountUnlessTwoOrThree :
    ((parserAt .pd ([0x41#7, 0x20#7, 0x42#7] ++ [0x41#7]) 0x20#7).Holds ([0x41#7, 0x20#7, 0x42#7] ++ [0x41#7]) ∧
      (parserAt .pd ([0x41#7, 0x20#7, 0x42#7] ++ [0x41#7]) 0x20#7).ChecksumRight [0x41#7, 0x20#7, 0x42#7] 0x41#7) ∧
    ([0x41#7, 0x20#7, 0x42#7, 0x20#7, 0x43#7, 0x20#7, 0x44#7, 0x20#7] : List Val).count 0x20#7 = 4 := by decide

/-- V-VAL-12 (two splitters, bytes behind the last) and V-VAL-07 (three). -/
theorem witness_CrProducesTheDataset :
    ((parserAt .pd val12 0x20#7).Holds ([0x41#7] ++ 0x20#7 :: ([0x42#7] ++ 0x20#7 :: [0x58#7, 0x59#7]) ++ [0x3B#7]) ∧
      (0x20#7 : Val) ∉ [0x41#7] ∧ (0x20#7 : Val) ∉ [0x42#7] ∧ (0x20#7 : Val) ∉ [0x58#7, 0x59#7] ∧
      (parserAt .pd val12 0x20#7).ChecksumRight ([0x41#7] ++ 0x20#7 :: ([0x42#7] ++ 0x20#7 :: [0x58#7, 0x59#7])) 0x3B#7) ∧
    ((parserAt .pd val07 0x09#7).Holds (val07.take 4 ++ 0x09#7 ::
        ((val07.drop 5).take 13 ++ 0x09#7 :: ([0x31#7, 0x32#7, 0x33#7] ++ 0x09#7 :: [])) ++ [0x3F#7]) ∧
      (0x09#7 : Val) ∉ val07.take 4 ∧ (0x09#7 : Val) ∉ (val07.drop 5).take 13 ∧ (0x09#7 : Val) ∉ [0x31#7, 0x32#7, 0x33#7] ∧
      (parserAt .pd val07 0x09#7).ChecksumRight (val07.take 4 ++ 0x09#7 ::
        ((val07.drop 5).take 13 ++ 0x09#7 :: ([0x31#7, 0x32#7, 0x33#7] ++ 0x09#7 :: []))) 0x3F#7) ∧
    ((val07.take 4).length ≤ 8 ∧ (List.replicate 34 (0x31#7 : Val)).length ≤ 34) := by decide

/-- The invariant holds in the middle of a dataset, in the middle of a tag, and while DETECT runs. -/
theorem witness_inv_pd : (parserAt .pd val01 0x20#7).Inv :=
  ⟨by decide, by decide, by decide, by decide, by decide, by decide, by decide⟩

theorem witness_inv_pt : (parserAt .pt tag8 0#7).Inv :=
  ⟨by decide, by decide, by decide, by decide, by decide, by decide, by decide⟩

theorem witness_inv_afs : (parserAt .afs [] 0#7).Inv :=
  ⟨by decide, by decide, by decide, by decide, by decide, by decide, by decide⟩

theorem witness_inv_detecting : (detectingAt (.us 104) 3 [some 104]).Inv :=
  ⟨by decide, by decide, by decide, by decide, by decide, by decide, by decide⟩

theorem witness_inv_fed (s : State) (q : List Raw) (h : s.Inv) : (fed s q).Inv :=
  ⟨h.config, h.buffer, h.split, h.tag, h.data, h.detector, h.outcome⟩

/-- A step from such a state, for the statements about every step. -/
theorem witness_StepKeepsInvariant :
    (fed (parserAt .pd val01 0x20#7) [0x0D#8]).Inv ∧
      nextIs (step (fed (parserAt .pd val01 0x20#7) [0x0D#8])) (fun _ => true) :=
  ⟨witness_inv_fed _ _ witness_inv_pd, by decide⟩

theorem witness_PollErrorIsPreciseAndResets :
    (fed (parserAt .pt tag8 0#7) [0xDA#8]).Inv ∧ (fed (parserAt .pt tag8 0#7) [0xDA#8]).activity = .polling ∧
      nextIs (step (fed (parserAt .pt tag8 0#7) [0xDA#8])) (fun t => t.outcome == some (.error .tagTooLong)) :=
  ⟨witness_inv_fed _ _ witness_inv_pt, rfl, by decide⟩

/-- For ProducedDatasetEndsPoll, ProducedFieldsFit and OutcomesOfEachCommand. -/
theorem witness_ProducedDatasetEndsPoll :
    (fed (parserAt .pd val01 0x20#7) [0x0D#8]).Inv ∧ (fed (parserAt .pd val01 0x20#7) [0x0D#8]).activity = .polling ∧
      nextIs (step (fed (parserAt .pd val01 0x20#7) [0x0D#8])) (fun t => t.activity == .idle && t.outcome ==
        some (.produced (val01.take 4) ((val01.drop 5).take 12))) :=
  ⟨witness_inv_fed _ _ witness_inv_pd, rfl, by decide⟩

theorem witness_OutcomesOfEachCommand :
    nextIs (step (detectingAt (.us 104) 10 [])) (fun t => t.activity == .idle) ∧
      nextIs (exec .reset State.reset) (fun _ => true) ∧ nextIs (exec .detect1200 State.reset) (fun _ => true) := by decide

/-- For SourceIsAFifo, CommandsAreTakenOnlyWhenIdle and ParserWrittenOnlyByPollAndReset. -/
theorem witness_whole_machine_steps :
    nextIs (step State.reset) (fun _ => true) ∧
      (State.reset.activity ≠ .polling ∧ ¬ (State.reset.activity = .idle ∧ State.reset.commands.head none = some 0x0#4)) ∧
      nextIs (step (parserAt .pt ab 0#7)) (fun _ => true) ∧ (parserAt .pt ab 0#7).activity ≠ .idle := by decide

theorem witness_PollEndsWhenNothingArrives :
    (fed (parserAt .afs [] 0#7) [0x80#8]).Inv ∧ (fed (parserAt .afs [] 0#7) [0x80#8]).activity = .polling ∧
      (fed (parserAt .afs [] 0#7) [0x80#8]).arrivals = .silent :=
  ⟨witness_inv_fed _ _ witness_inv_afs, rfl, rfl⟩

theorem witness_PollFedForeverNeverEnds :
    ∃ s : State, s.cfg.wf ∧ s.activity = .polling ∧ s.parser = .afs ∧ s.source = [] ∧ s.arrivals = ⟨[], [[0x80#8]]⟩ :=
  ⟨{ parserAt .afs [] 0#7 with arrivals := ⟨[], [[0x80#8]]⟩ }, by decide, rfl, rfl, rfl, rfl⟩

theorem witness_PartialDrainGoesOnLater :
    ∃ s t : State, s.cfg.wf ∧ s.activity = .polling ∧ s.outcome = none ∧ s.commands = .silent ∧ s.arrivals = .silent ∧
      s.source = [0x02#8] ∧ run [0x02#8].length s = .next t ∧ t.activity = .polling :=
  ⟨fed (parserAt .afs [] 0#7) [0x02#8], parserAt .adfe [] 0#7, by decide, rfl, rfl, rfl, rfl, rfl, rfl, rfl⟩

/-- Between two datasets, with what the one before left in the buffer. -/
theorem witness_inv_adfe : (parserAt .adfe val01 0x20#7).Inv :=
  ⟨by decide, by decide, by decide, by decide, by decide, by decide, by decide⟩

/-- W3a with two waits. -/
def w3aWaits : List (Option Nat) := none :: (w3a.take 4).map some ++ none :: (w3a.drop 4).map some

theorem witness_DetectWithWaitsClassifiesTheSmallest :
    w3aWaits.countP Option.isSome = 10 ∧ w3aWaits.getLast? = some (some 520) ∧ some 95 ∈ w3aWaits ∧
      (∀ w, some w ∈ w3aWaits → 95 ≤ w) ∧
      ∃ s : State, s.cfg.wf ∧ s.activity = .idle ∧ s.commands.coming = some 0x2#4 :: [] ∧ s.line.coming = w3aWaits ++ [] :=
  ⟨by decide, by decide, by decide, by simp [w3aWaits, w3a],
    { told State.reset 0x2#4 with line := ⟨w3aWaits, []⟩ }, by decide, rfl, rfl, rfl⟩

/-- The longest data beside an 8-byte tag, and noise in front: all hypotheses of the statements about whole datasets at once,
for TAB and for SPACE. -/
def longData : List Val := List.replicate 26 0x39#7

theorem witness_PollDecodesAWellFormedDataset : ∀ sep ∈ ([0x09#7, 0x20#7] : List Val),
    ∃ (s : State) (noise rest : List Raw), s.Inv ∧ s.activity = .polling ∧ s.parser = .afs ∧ s.arrivals = .silent ∧
      (∀ r ∈ noise, popcount r % 2 = 1 ∧ r ≠ 0x02#8) ∧ (sep = 0x09#7 ∨ sep = 0x20#7) ∧ tag8.length ≤ 8 ∧
      (∀ v ∈ tag8, v ≠ 0x09#7 ∧ v ≠ 0x20#7) ∧ (∀ v ∈ longData, v ≠ sep ∧ v ≠ 0x0D#7) ∧
      tag8.length + longData.length + 3 ≤ s.cfg.bufCap ∧
      s.source = noise ++ rawStream (0x02#7 :: ds tag8 sep longData) ++ rest := fun sep h =>
  ⟨fed (parserAt .afs [] 0#7) ([0x80#8, 0x83#8] ++ rawStream (0x02#7 :: ds tag8 sep longData) ++ [0x83#8]),
    [0x80#8, 0x83#8], [0x83#8], witness_inv_fed _ _ witness_inv_afs, rfl, rfl, rfl, by decide, by simpa using h, by decide,
    by decide, by revert sep; decide,
    (by decide : tag8.length + longData.length + 3 ≤ Config.hardware.bufCap), rfl⟩

theorem witness_PollDecodesTheNextDataset : ∀ sep ∈ ([0x09#7, 0x20#7] : List Val),
    ∃ (s : State) (rest : List Raw), s.Inv ∧ s.activity = .polling ∧ s.parser = .adfe ∧ s.arrivals = .silent ∧
      (sep = 0x09#7 ∨ sep = 0x20#7) ∧ tag8.length ≤ 8 ∧ (∀ v ∈ tag8, v ≠ 0x09#7 ∧ v ≠ 0x20#7) ∧
      (∀ v ∈ longData, v ≠ sep ∧ v ≠ 0x0D#7) ∧ tag8.length + longData.length + 3 ≤ s.cfg.bufCap ∧
      s.source = rawStream (ds tag8 sep longData) ++ rest := fun sep h =>
  ⟨fed (parserAt .adfe val01 0x20#7) (rawStream (ds tag8 sep longData) ++ [0x83#8]), [0x83#8],
    witness_inv_fed _ _ witness_inv_adfe, rfl, rfl, rfl, by simpa using h, by decide, by decide, by revert sep; decide,
    (by decide : tag8.length + longData.length + 3 ≤ Config.hardware.bufCap), rfl⟩

/-- The tag, the timestamp and the data of a 3-field dataset that fills the buffer. -/
def date : List Val := val07.take 4
def horodate : List Val := (val07.drop 5).take 13
def data16 : List Val := List.replicate 16 0x39#7

theorem witness_PollDecodesAThreeFieldDataset : ∀ sep ∈ ([0x09#7, 0x20#7] : List Val),
    ∃ (s : State) (noise rest : List Raw), s.Inv ∧ s.activity = .polling ∧ s.parser = .afs ∧ s.arrivals = .silent ∧
      (∀ r ∈ noise, popcount r % 2 = 1 ∧ r ≠ 0x02#8) ∧ (sep = 0x09#7 ∨ sep = 0x20#7) ∧ date.length ≤ 8 ∧
      (∀ v ∈ date, v ≠ 0x09#7 ∧ v ≠ 0x20#7) ∧ (∀ v ∈ horodate, v ≠ sep ∧ v ≠ 0x0D#7) ∧
      (∀ v ∈ data16, v ≠ sep ∧ v ≠ 0x0D#7) ∧ date.length + horodate.length + data16.length + 4 ≤ s.cfg.bufCap ∧
      s.source = noise ++ rawStream (0x02#7 :: ds3 date sep horodate data16) ++ rest := fun sep h =>
  ⟨fed (parserAt .afs [] 0#7) ([0x80#8] ++ rawStream (0x02#7 :: ds3 date sep horodate data16) ++ [0x83#8]),
    [0x80#8], [0x83#8], witness_inv_fed _ _ witness_inv_afs, rfl, rfl, rfl, by decide, by simpa using h, by decide,
    by decide, by revert sep; decide, by revert sep; decide,
    (by decide : date.length + horodate.length + data16.length + 4 ≤ Config.hardware.bufCap), rfl⟩

theorem witness_PollDecodesTheNextThreeFieldDataset : ∀ sep ∈ ([0x09#7, 0x20#7] : List Val),
    ∃ (s : State) (rest : List Raw), s.Inv ∧ s.activity = .polling ∧ s.parser = .adfe ∧ s.arrivals = .silent ∧
      (sep = 0x09#7 ∨ sep = 0x20#7) ∧ date.length ≤ 8 ∧ (∀ v ∈ date, v ≠ 0x09#7 ∧ v ≠ 0x20#7) ∧
      (∀ v ∈ horodate, v ≠ sep ∧ v ≠ 0x0D#7) ∧ (∀ v ∈ data16, v ≠ sep ∧ v ≠ 0x0D#7) ∧
      date.length + horodate.length + data16.length + 4 ≤ s.cfg.bufCap ∧
      s.source = rawStream (ds3 date sep horodate data16) ++ rest := fun sep h =>
  ⟨fed (parserAt .adfe val01 0x20#7) (rawStream (ds3 date sep horodate data16) ++ [0x83#8]), [0x83#8],
    witness_inv_fed _ _ witness_inv_adfe, rfl, rfl, rfl, by simpa using h, by decide, by decide, by revert sep; decide,
    by revert sep; decide,
    (by decide : date.length + horodate.length + data16.length + 4 ≤ Config.hardware.bufCap), rfl⟩

end Sys2Proof.Tests
end

