-- ==== Sys2Proof/Proofs/CommandDecoding.lean ====
section
/-! The two fields of a command word, the words that no command has, and the step that meets one of them. -/

namespace Sys2Proof

/-- The low half of a word written from its fields is `CMD` (R77). -/
@[simp] theorem cmdField_append (hint cmd : BitVec 2) : cmdField (hint ++ cmd) = cmd :=
  BitVec.extractLsb'_append_eq_right

/-- The high half of a word written from its fields is `HINT` (R77). -/
@[simp] theorem hintField_append (hint cmd : BitVec 2) : hintField (hint ++ cmd) = hint :=
  BitVec.extractLsb'_append_eq_left

/-- The 11 words to which R78 gives no meaning (95_test_vectors.md section 2.8). -/
def reservedWords : List CmdWord :=
  [0x3#4, 0x4#4, 0x5#4, 0x7#4, 0x8#4, 0x9#4, 0xB#4, 0xC#4, 0xD#4, 0xE#4, 0xF#4]

/-- The decoder rejects exactly the reserved words, each by its own name. -/
theorem decodeCommand_eq_reservedCommand_iff (w : CmdWord) :
    decodeCommand w = .reservedCommand w ↔ w ∈ reservedWords := by
  revert w; decide

namespace Machine

/-- An idle block whose next command is rejected by the decoder refuses it by name (R78, D18). -/
theorem step_of_reservedCommand {s : State} {w : CmdWord} (hw : s.cfg.wf) (ha : s.activity = .idle)
    (hc : s.commands.head none = some w) (hd : decodeCommand w = .reservedCommand w) :
    step s = .refused (.reservedCommand w) := by
  have answer := step_answer s
  generalize step s = o at answer ⊢
  cases answer with
  | illFormed h => exact absurd hw h
  | waits _ hc' => simp [hc] at hc'
  | command w' i _ hc' hd' _ =>
    obtain rfl : w = w' := Option.some.inj (hc.symm.trans hc')
    simp [hd] at hd'
  | reserved w' _ hc' _ =>
    obtain rfl : w = w' := Option.some.inj (hc.symm.trans hc')
    rfl
  | drained h _ => simp [ha] at h
  | byte r q h _ => simp [ha] at h
  | detects h => simp [ha] at h

end Machine

/-- Settles O6: the decoder reads a word through its two fields, and a step that meets a rejected word refuses it. -/
theorem commandDecodingIsTotal : Obligations.CommandDecodingIsTotal := by
  unfold Obligations.CommandDecodingIsTotal
  constructor
  · intro cmd hint
    simp only [decodeCommand, cmdField_append, hintField_append]
  · intro s w hwf hidle hnext hreserved
    exact Machine.step_of_reservedCommand hwf hidle hnext
      ((decodeCommand_eq_reservedCommand_iff w).mpr hreserved)

end Sys2Proof
end

