-- ==== Sys2Proof/Proofs/HintedDetect.lean ====
section
/-! What a hinted DETECT does in its one step: it finishes with the rate of its hint (40_baud_detector.md R102). -/

namespace Sys2Proof

namespace Machine

/-- R102 for the hint `B1200`; what `State.finished` leaves unchanged, Laws/State.lean says field by field. -/
@[simp] theorem exec_detect1200 (s : State) : exec .detect1200 s = .next (s.finished (.rate .b1200)) := rfl

/-- R102 for the hint `B9600`. -/
@[simp] theorem exec_detect9600 (s : State) : exec .detect9600 s = .next (s.finished (.rate .b9600)) := rfl

end Machine

/-- Settles O14: each hinted DETECT only finishes, and finishing writes the transaction and its outcome alone. -/
theorem hintedDetectReturnsTheHint : Obligations.HintedDetectReturnsTheHint := by
  unfold Obligations.HintedDetectReturnsTheHint
  intro s
  constructor
  · exact Machine.exec_detect1200 s
  · exact Machine.exec_detect9600 s

end Sys2Proof
end

