-- ==== Sys2Proof/Proofs/Reset.lean ====
section
/-! What RESET does in its one step: it clears the parser registers and finishes with EMPTY (41_poll_and_reset.md R130). -/

namespace Sys2Proof

/-- R78: the word whose two fields are both zero is RESET. -/
@[simp] theorem decode_resetWord : decode (.command 0x0#4) = .instr .reset := by
  decide

namespace Machine

/-- R130; what `State.cleared` and `State.finished` leave unchanged, Laws/State.lean says field by field. -/
@[simp] theorem exec_reset (s : State) : exec .reset s = .next (s.cleared.finished .empty) := rfl

end Machine

/-- Settles O13: RESET is the clearing followed by the end with EMPTY, and these two write the parser registers, the
transaction and its outcome alone. -/
theorem resetClearsTheParser : Obligations.ResetClearsTheParser := by
  unfold Obligations.ResetClearsTheParser
  constructor
  · exact decode_resetWord
  · exact Machine.exec_reset

end Sys2Proof
end

