-- ==== Sys2Proof/Proofs/FramerBytes.lean ====
section
/-! The byte classes other than CR, each in the four parser states (42_framer_bytes.md R141 to R143, R145, R146), with the
append actions R147 and R148 at and below their limits. -/

namespace Sys2Proof

namespace Machine

/-! ### The append actions -/

theorem tagAppend_of_len_eq {s : State} (v : Val) (h : s.len = 8) :
    tagAppend v s = .next (s.errored .tagTooLong) := if_pos h

/-- Below `TAG_CAP` a well-formed configuration has room for one more byte (R9). -/
theorem tagAppend_of_len_lt {s : State} (v : Val) (hwf : s.cfg.wf) (h : s.len < 8) :
    tagAppend v s = .next (s.pushed v) := by
  have hcap : 8 + 1 ≤ s.cfg.bufCap := hwf
  rcases tagAppend_cases v s with ⟨hfull, -⟩ | ⟨-, -, stored⟩ | ⟨-, hpast, -⟩
  · exact absurd hfull (Nat.ne_of_lt h)
  · exact stored
  · omega

theorem dataAppend_of_len_eq {s : State} (v : Val) (h : s.len = s.cfg.bufCap) :
    dataAppend v s = .next (s.errored .datasetTooLong) := if_pos h

theorem dataAppend_of_len_lt {s : State} (v : Val) (h : s.len < s.cfg.bufCap) :
    dataAppend v s = .next (s.pushed v) := by
  rcases dataAppend_cases v s with ⟨hfull, -⟩ | ⟨-, stored⟩ | ⟨hpast, -⟩
  · omega
  · exact stored
  · omega

/-! ### Bytes whose step is an append action -/

/-- The two ends of a byte that R148 appends in `PD`. -/
theorem exec_pd_of_dataAppend {i : Instr} {v : Val} {s : State}
    (hpd : s.parser = .pd → exec i s = dataAppend v s) :
    (s.parser = .pd → s.len = s.cfg.bufCap → exec i s = .next (s.afterError .datasetTooLong)) ∧
    (s.parser = .pd → s.len < s.cfg.bufCap → exec i s = .next (s.afterAppend v)) :=
  ⟨fun h hl => (hpd h).trans (dataAppend_of_len_eq v hl), fun h hl => (hpd h).trans (dataAppend_of_len_lt v hl)⟩

/-- The four ends of a byte that R147 appends in `PT` and R148 in `PD`. -/
theorem exec_pt_pd_of_append {i : Instr} {v : Val} {s : State} (hwf : s.cfg.wf)
    (hpt : s.parser = .pt → exec i s = tagAppend v s) (hpd : s.parser = .pd → exec i s = dataAppend v s) :
    (s.parser = .pt → s.len = 8 → exec i s = .next (s.afterError .tagTooLong)) ∧
    (s.parser = .pt → s.len < 8 → exec i s = .next (s.afterAppend v)) ∧
    (s.parser = .pd → s.len = s.cfg.bufCap → exec i s = .next (s.afterError .datasetTooLong)) ∧
    (s.parser = .pd → s.len < s.cfg.bufCap → exec i s = .next (s.afterAppend v)) :=
  ⟨fun h hl => (hpt h).trans (tagAppend_of_len_eq v hl), fun h hl => (hpt h).trans (tagAppend_of_len_lt v hwf hl),
    exec_pd_of_dataAppend hpd⟩

/-! ### One equation per byte class and parser state -/

section

variable {s : State}

theorem exec_byteStx_afs (h : s.parser = .afs) : exec .byteStx s = .next { s with parser := .adfe, len := 0 } := by
  simp only [exec, execByteStx, h]

theorem exec_byteStx_adfe (h : s.parser = .adfe) : exec .byteStx s = .next (s.errored .unexpectedByte) := by
  simp only [exec, execByteStx, h, raiseError]

theorem exec_byteStx_pt (h : s.parser = .pt) : exec .byteStx s = tagAppend Ascii.stx s := by
  simp only [exec, execByteStx, h]

theorem exec_byteStx_pd (h : s.parser = .pd) : exec .byteStx s = dataAppend Ascii.stx s := by
  simp only [exec, execByteStx, h]

theorem exec_byteEtx_afs (h : s.parser = .afs) : exec .byteEtx s = .next s := by
  simp only [exec, execByteEtx, h]

theorem exec_byteEtx_adfe (h : s.parser = .adfe) : exec .byteEtx s = .next { s with parser := .afs } := by
  simp only [exec, execByteEtx, h]

theorem exec_byteEtx_pt (h : s.parser = .pt) : exec .byteEtx s = tagAppend Ascii.etx s := by
  simp only [exec, execByteEtx, h]

theorem exec_byteEtx_pd (h : s.parser = .pd) : exec .byteEtx s = dataAppend Ascii.etx s := by
  simp only [exec, execByteEtx, h]

theorem exec_byteLf_afs (h : s.parser = .afs) : exec .byteLf s = .next s := by
  simp only [exec, execByteLf, h]

theorem exec_byteLf_adfe (h : s.parser = .adfe) : exec .byteLf s = .next { s with parser := .pt, len := 0 } := by
  simp only [exec, execByteLf, h]

theorem exec_byteLf_pt (h : s.parser = .pt) : exec .byteLf s = tagAppend Ascii.lf s := by
  simp only [exec, execByteLf, h]

theorem exec_byteLf_pd (h : s.parser = .pd) : exec .byteLf s = dataAppend Ascii.lf s := by
  simp only [exec, execByteLf, h]

theorem exec_byteOther_afs (p : BitVec 1) (d : Val) (h : s.parser = .afs) : exec (.byteOther p d) s = .next s := by
  simp only [exec, execByteOther, h]

theorem exec_byteOther_adfe (p : BitVec 1) (d : Val) (h : s.parser = .adfe) :
    exec (.byteOther p d) s = .next (s.errored .unexpectedByte) := by
  simp only [exec, execByteOther, h, raiseError]

theorem exec_byteOther_pt (p : BitVec 1) (d : Val) (h : s.parser = .pt) :
    exec (.byteOther p d) s = tagAppend d s := by
  simp only [exec, execByteOther, h]

theorem exec_byteOther_pd (p : BitVec 1) (d : Val) (h : s.parser = .pd) :
    exec (.byteOther p d) s = dataAppend d s := by
  simp only [exec, execByteOther, h]

theorem splitterStep_afs (v : Val) (h : s.parser = .afs) : splitterStep v s = .next s := by
  simp only [splitterStep, h]

theorem splitterStep_adfe (v : Val) (h : s.parser = .adfe) :
    splitterStep v s = .next (s.errored .unexpectedByte) := by
  simp only [splitterStep, h, raiseError]

/-- The splitter test comes before the tag-length test (R146), so room in the buffer is all a splitter needs. -/
theorem splitterStep_pt (v : Val) (h : s.parser = .pt) (hl : s.len < s.cfg.bufCap) :
    splitterStep v s = .next { s.pushed v with split := v, parser := .pd } := by
  simp only [splitterStep, h, append_of_lt v hl]

theorem splitterStep_pd (v : Val) (h : s.parser = .pd) : splitterStep v s = dataAppend v s := by
  simp only [splitterStep, h]

end

/-- TAB and SPACE have one rule, each with its own value (R146). -/
theorem exec_eq_splitterStep {i : Instr} {v : Val} (h : (i, v) ∈ [(Instr.byteTab, 0x09#7), (.byteSp, 0x20#7)])
    (s : State) : exec i s = splitterStep v s := by
  simp only [List.mem_cons, List.not_mem_nil, or_false, Prod.mk.injEq] at h
  obtain ⟨rfl, rfl⟩ | ⟨rfl, rfl⟩ := h
  · rfl
  · rfl

end Machine

open Machine

/-- A valid byte without a row of its own is OTHER (R75, R145). -/
theorem decodeByte_of_not_isNamed {r : Raw} (hp : ¬ parityBad r) (hn : ¬ isNamed (strip r)) :
    decodeByte r = .byteOther (parityBit r) (strip r) := by
  simp only [isNamed, isSplitter, not_or] at hn
  obtain ⟨hstx, hetx, hlf, hcr, htab, hsp⟩ := hn
  simp only [decodeByte, hp, hstx, hetx, hlf, hcr, htab, hsp, if_false]

/-- The named values, listed in ascending order (R75). -/
theorem isNamed_iff_mem (v : Val) :
    isNamed v ↔ v ∈ [0x02#7, 0x03#7, 0x09#7, 0x0A#7, 0x0D#7, 0x20#7] := by
  revert v; decide

/-- Settles O23: STX has an entry of its own in `AFS` and `ADFE`, and is an appended byte in `PT` and `PD`. -/
theorem stxStep : Obligations.StxStep := by
  unfold Obligations.StxStep
  refine ⟨by decide, fun s hwf => ⟨exec_byteStx_afs, exec_byteStx_adfe, ?_⟩⟩
  exact exec_pt_pd_of_append hwf exec_byteStx_pt exec_byteStx_pd

/-- Settles O24: ETX closes a frame in `ADFE`, and is an appended byte in `PT` and `PD`. -/
theorem etxStep : Obligations.EtxStep := by
  unfold Obligations.EtxStep
  refine ⟨by decide, fun s hwf => ⟨exec_byteEtx_afs, exec_byteEtx_adfe, ?_⟩⟩
  exact exec_pt_pd_of_append hwf exec_byteEtx_pt exec_byteEtx_pd

/-- Settles O25: LF starts a dataset in `ADFE`, and is an appended byte in `PT` and `PD`. -/
theorem lfStep : Obligations.LfStep := by
  unfold Obligations.LfStep
  refine ⟨by decide, fun s hwf => ⟨exec_byteLf_afs, exec_byteLf_adfe, ?_⟩⟩
  exact exec_pt_pd_of_append hwf exec_byteLf_pt exec_byteLf_pd

/-- Settles O27: both splitters follow the one splitter step, which in `PT` needs no more than the room that R9 grants
behind 8 tag bytes. -/
theorem splitterStep : Obligations.SplitterStep := by
  unfold Obligations.SplitterStep
  refine ⟨by decide, by decide, fun s i v hiv hwf => ?_⟩
  have hexec : exec i s = Machine.splitterStep v s := exec_eq_splitterStep hiv s
  refine ⟨fun h => hexec.trans (splitterStep_afs v h), fun h => hexec.trans (splitterStep_adfe v h), fun h hl => ?_, ?_⟩
  · have hroom : s.len < s.cfg.bufCap := Nat.lt_of_lt_of_le (Nat.lt_succ_of_le hl) hwf
    exact hexec.trans (splitterStep_pt v h hroom)
  · exact exec_pd_of_dataAppend fun h => hexec.trans (splitterStep_pd v h)

/-- Settles O28: a valid byte that is none of the six named values decodes to OTHER, which is unexpected in `ADFE` and an
appended byte in `PT` and `PD`. -/
theorem otherByteStep : Obligations.OtherByteStep := by
  unfold Obligations.OtherByteStep
  constructor
  · intro r hodd hother
    have hparity : ¬ parityBad r := by simp [parityBad, hodd]
    exact congrArg Decoded.instr (decodeByte_of_not_isNamed hparity fun h => hother ((isNamed_iff_mem _).mp h))
  · intro s p d hwf
    refine ⟨exec_byteOther_afs p d, exec_byteOther_adfe p d, ?_⟩
    exact exec_pt_pd_of_append hwf (exec_byteOther_pt p d) (exec_byteOther_pd p d)

end Sys2Proof
end

