-- ==== Sys2Proof/Proofs/DatasetValidation.lean ====
section
/-! CR in `PD` with the right checksum: the field count and the fields that Validate extracts, and the POLL step that
produces a dataset (43_dataset_validation.md R170 to R178, 41_poll_and_reset.md R121). -/

namespace Sys2Proof

namespace Machine

/-! ### From CR to the extraction -/

theorem exec_byteCr_pd {s : State} (h : s.parser = .pd) : exec .byteCr s = validate s := by
  simp only [exec, execByteCr, h]

/-- The sum written out for each splitter (R172, R173) is the checksum of the covered bytes. -/
theorem State.ChecksumRight.checksum_covered {s : State} {body : List Val} {c : Val} (h : s.ChecksumRight body c) :
    isSplitter s.split ∧ checksum (covered s.split body) = c.toNat := by
  obtain ⟨hsp, hsum⟩ | ⟨htab, hsum⟩ := h
  · exact ⟨.inr hsp, (congrArg checksum (if_pos hsp)).trans hsum⟩
  · have hne : s.split ≠ Ascii.sp := by rw [htab]; decide
    exact ⟨.inl htab, (congrArg checksum (if_neg hne)).trans hsum⟩

/-- Behind the right checksum only the fields decide (R174, R175). -/
theorem exec_byteCr_of_checksumRight {s : State} {body : List Val} {c : Val} (hpd : s.parser = .pd)
    (hholds : s.Holds (body ++ [c])) (hright : s.ChecksumRight body c) : exec .byteCr s = extract body s := by
  obtain ⟨hsplit, hsum⟩ := hright.checksum_covered
  rw [exec_byteCr_pd hpd, validate, if_pos hsplit, checkAndExtract_of_holds hholds, if_pos hsum]

/-! ### The field count -/

theorem produce_ne_errored (tag data : List Val) (k : ErrorKind) (s : State) :
    produce tag data s ≠ .next (s.errored k) := by
  intro h
  have houtcome := congrArg State.outcome (Host.Outcome.next.inj h)
  simp at houtcome

theorem extract_eq_invalidFieldCount_iff (body : List Val) (s : State) :
    extract body s = .next (s.errored .invalidFieldCount) ↔ body.count s.split ≠ 2 ∧ body.count s.split ≠ 3 := by
  rw [← length_splitterPositions]
  unfold extract
  split
  · next hpos => simp [hpos, produce_ne_errored]
  · next hpos => simp [hpos, produce_ne_errored]
  · next htwo hthree =>
    refine iff_of_true rfl ⟨fun h => ?_, fun h => ?_⟩
    · obtain ⟨p0, p1, hpos⟩ := List.length_eq_two.mp h
      exact htwo p0 p1 hpos
    · obtain ⟨p0, p1, p2, hpos⟩ := List.length_eq_three.mp h
      exact hthree p0 p1 p2 hpos

/-! ### The fields -/

/-- A field without the splitter, then the splitter: its position is the field's length (R175). -/
theorem splitterPositions_field {sp : Val} {field : List Val} (h : sp ∉ field) (rest : List Val) :
    splitterPositions sp (field ++ sp :: rest) =
      field.length :: (splitterPositions sp rest).map (field.length + 1 + ·) := by
  rw [splitterPositions_append, splitterPositions_of_not_mem h, splitterPositions_cons_self]
  simp [Nat.add_assoc]

/-- The part of a list that stands behind `before` and is as long as `field` is `field` (R10). -/
theorem between_eq_field {lo hi : Nat} {vs : List Val} (before field rest : List Val)
    (hvs : vs = before ++ (field ++ rest)) (hlo : lo = before.length) (hhi : hi = lo + field.length) :
    between lo hi vs = field := by
  subst hvs hhi hlo
  simp [between, List.take_append]

section

variable {s : State} {tag timestamp data extra : List Val}

/-- R176 for two splitters: the fields are the tag and the data. -/
theorem extract_two_fields (htag : s.split ∉ tag) (hdata : s.split ∉ data) (hextra : s.split ∉ extra) :
    extract (tag ++ s.split :: (data ++ s.split :: extra)) s = produce tag data s := by
  have hpos : splitterPositions s.split (tag ++ s.split :: (data ++ s.split :: extra)) =
      [tag.length, tag.length + 1 + data.length] := by
    simp [splitterPositions_field htag, splitterPositions_field hdata, splitterPositions_of_not_mem hextra]
  simp only [extract, hpos]
  congr 1
  · exact between_eq_field [] tag _ rfl rfl (Nat.zero_add _).symm
  · exact between_eq_field (tag ++ [s.split]) data (s.split :: extra) (by simp) (by simp) rfl

/-- R176 for three splitters: the field in the middle, the timestamp, is discarded. -/
theorem extract_three_fields (htag : s.split ∉ tag) (htimestamp : s.split ∉ timestamp) (hdata : s.split ∉ data)
    (hextra : s.split ∉ extra) :
    extract (tag ++ s.split :: (timestamp ++ s.split :: (data ++ s.split :: extra))) s = produce tag data s := by
  have hpos : splitterPositions s.split (tag ++ s.split :: (timestamp ++ s.split :: (data ++ s.split :: extra))) =
      [tag.length, tag.length + 1 + timestamp.length, tag.length + 1 + timestamp.length + 1 + data.length] := by
    simp [splitterPositions_field htag, splitterPositions_field htimestamp, splitterPositions_field hdata,
      splitterPositions_of_not_mem hextra, Nat.add_assoc]
  simp only [extract, hpos]
  congr 1
  · exact between_eq_field [] tag _ rfl rfl (Nat.zero_add _).symm
  · exact between_eq_field (tag ++ s.split :: (timestamp ++ [s.split])) data (s.split :: extra) (by simp)
      (by simp; omega) rfl

end

/-- Within `TAG_CAP` and `DATA_CAP` the record's length fields are exact (R80). -/
theorem outcomeRecord_produced {tag data : List Val} (htag : tag.length ≤ 8) (hdata : data.length ≤ 34) : ∃ tl dl,
    outcomeRecord (.produced tag data) = ⟨1#2, none, none, some tl, some tag, some dl, some data⟩ ∧
    tl.toNat = tag.length ∧ dl.toNat = data.length :=
  ⟨_, _, rfl, Nat.mod_eq_of_lt (by omega), Nat.mod_eq_of_lt (by omega)⟩

/-! ### The POLL step that produces -/

/-- A step of a polling block either finds the source empty or executes the head byte (R121, R125). -/
theorem step_polling_cases {s t : State} (hpoll : s.activity = .polling) (h : step s = .next t) :
    t = s.deliver.finished .empty ∨ ∃ r q, s.source ++ s.arrivals.head [] = r :: q ∧
      exec (decodeByte r) { s.deliver with source := q } = .next t := by
  have answer := step_answer s
  generalize step s = o at answer h
  cases answer with
  | illFormed _ => cases h
  | waits hidle _ => simp [hpoll] at hidle
  | command _ _ hidle _ _ _ => simp [hpoll] at hidle
  | reserved _ hidle _ _ => simp [hpoll] at hidle
  | drained _ _ => exact .inl (Host.Outcome.next.inj h).symm
  | byte r q _ hq => exact .inr ⟨r, q, hq, h⟩
  | detects hdetect => simp [hpoll] at hdetect

/-- A byte step that ends in PRODUCED, where no outcome stood before, is CR in `PD` (R144, R178). -/
theorem exec_byte_produced {i : Instr} {s t : State} {tag data : List Val} (hi : isByte i = true)
    (hnone : s.outcome = none) (h : exec i s = .next t) (hout : t.outcome = some (.produced tag data)) :
    i = .byteCr ∧ s.parser = .pd ∧ t = s.afterProduced tag data := by
  have answer := exec_byte_answer hi s
  generalize exec i s = o at answer h
  cases answer with
  | produced tag' data' hcr hpd _ =>
    obtain rfl := Host.Outcome.next.inj h
    obtain ⟨rfl, rfl⟩ : tag' = tag ∧ data' = data := by simpa using hout
    exact ⟨hcr, hpd, rfl⟩
  | error k _ _ => obtain rfl := Host.Outcome.next.inj h; simp at hout
  | appendFault _ => cases h
  | readFault _ _ => cases h
  | ignored _ | frameStart _ | frameEnd _ | datasetStart _ | tagByte _ _ _ _ _ | splitter _ _ _ _
  | dataByte _ _ _ => obtain rfl := Host.Outcome.next.inj h; simp [hnone] at hout

end Machine

open Machine

/-- CR has one raw byte (R75). -/
theorem decodeByte_eq_byteCr_iff (r : Raw) : decodeByte r = .byteCr ↔ r = 0x0D#8 := by
  revert r; decide

/-- Settles O33: behind the right checksum CR is the extraction, which fails exactly on the number of splitter positions,
and that is the number of occurrences. -/
theorem crRaisesInvalidFieldCountUnlessTwoOrThree : Obligations.CrRaisesInvalidFieldCountUnlessTwoOrThree := by
  unfold Obligations.CrRaisesInvalidFieldCountUnlessTwoOrThree
  intro s body c hpd hholds hright
  rw [exec_byteCr_of_checksumRight hpd hholds hright]
  exact extract_eq_invalidFieldCount_iff body s

/-- Settles O34: the splitters stand at the ends of the fields, so the extraction cuts out the tag and the data. -/
theorem crProducesTheDataset : Obligations.CrProducesTheDataset := by
  unfold Obligations.CrProducesTheDataset
  refine ⟨?_, ?_, fun _ _ => outcomeRecord_produced⟩
  · intro s tag data extra c hpd hholds htag hdata hextra hright
    exact (exec_byteCr_of_checksumRight hpd hholds hright).trans (extract_two_fields htag hdata hextra)
  · intro s tag timestamp data extra c hpd hholds htag htimestamp hdata hextra hright
    exact (exec_byteCr_of_checksumRight hpd hholds hright).trans
      (extract_three_fields htag htimestamp hdata hextra)

/-- Settles O40: a running POLL holds no outcome, so PRODUCED comes from the step's own byte, and only CR in `PD` gives
it. -/
theorem producedDatasetEndsPoll : Obligations.ProducedDatasetEndsPoll := by
  unfold Obligations.ProducedDatasetEndsPoll
  intro s t tag data hinv hpoll hstep hout
  have hnone : s.deliver.outcome = none := hinv.outcome (by simp [hpoll])
  obtain rfl | ⟨r, q, hq, hexec⟩ := step_polling_cases hpoll hstep
  · simp at hout
  · obtain ⟨hcr, hpd, ht⟩ :=
      exec_byte_produced (s := { s.deliver with source := q }) (isByte_decodeByte r) hnone hexec hout
    obtain rfl := (decodeByte_eq_byteCr_iff r).mp hcr
    exact ⟨q, hq, hpd, ht⟩

end Sys2Proof
end

