-- ==== Sys2Proof/Proofs/PowerOn.lean ====
section
/-! The power-on state: its parser registers are the ones RESET leaves, and no DETECT has given the detector registers a
value (70_reset_and_hazards.md R230). -/

namespace Sys2Proof

namespace Machine

/-- R230, D12: at power-on there is nothing for RESET's clearing to change. -/
theorem State.cleared_reset : State.reset.cleared = State.reset := rfl

end Machine

open Machine

/-- Settles O35: the power-on state is a cleared one, so its parser registers have the values that clearing gives them. -/
theorem powerOnState : Obligations.PowerOnState := by
  unfold Obligations.PowerOnState
  rw [← State.cleared_reset]
  exact ⟨State.cleared_parser _, State.cleared_len _, State.cleared_split _, State.cleared_buf _,
    State.cleared_min _, State.cleared_idx _⟩

end Sys2Proof
end

