-- ==== Sys2Proof/Proofs/Encoding.lean ====
section
/-! The words of the two ports and their instructions: each decodes to the other (30_encoding.md R70 to R78), and the codes
of the outcome record (R80). -/

namespace Sys2Proof

open Machine

/-! ### Raw bytes -/

/-- Field `P` is the high bit of a raw byte written from its fields (R70). -/
@[simp] theorem parityBit_joinRaw (p : BitVec 1) (d : Val) : parityBit (joinRaw p d) = p :=
  BitVec.extractLsb'_append_eq_left

/-- Parity stripping leaves the data bits (R72). -/
@[simp] theorem strip_joinRaw (p : BitVec 1) (d : Val) : strip (joinRaw p d) = d :=
  BitVec.extractLsb'_append_eq_right

/-- R71: parity comes before the class. -/
theorem decodeByte_of_parityBad {r : Raw} (h : parityBad r) :
    decodeByte r = .byteParityBad (parityBit r) (strip r) := if_pos h

/-- With odd parity the data bits determine the parity bit (R74). -/
theorem eq_validRaw_strip {r : Raw} (h : ¬ parityBad r) : r = validRaw (strip r) := by
  revert r; decide

/-- R74: a value has one valid raw byte. -/
theorem valid_strip_eq_iff (r : Raw) (v : Val) : (strip r = v ∧ popcount r % 2 = 1) ↔ r = validRaw v := by
  constructor
  · rintro ⟨rfl, hodd⟩
    exact eq_validRaw_strip (by simp [parityBad, hodd])
  · rintro rfl
    exact ⟨strip_validRaw v, Nat.mod_two_ne_zero.mp (not_parityBad_validRaw v)⟩

/-- R74: the parity-bad raw bytes are those left over. -/
theorem parityBad_iff_ne_validRaw (r : Raw) : popcount r % 2 = 0 ↔ ∀ v, r ≠ validRaw v := by
  constructor
  · rintro hbad v rfl
    exact not_parityBad_validRaw v hbad
  · intro h
    by_contra hodd
    exact h (strip r) (eq_validRaw_strip hodd)

/-- The word of a raw byte's class is that byte (R75). -/
theorem encode_decodeByte (r : Raw) : encode (decodeByte r) = .raw r := by
  by_cases hbad : parityBad r
  · rw [decodeByte_of_parityBad hbad, encode, joinRaw_fields]
  · have hr := eq_validRaw_strip hbad
    unfold decodeByte
    rw [if_neg hbad]
    iterate 6
      split
      · next hnamed => rw [hr, hnamed]; rfl
    rw [encode, joinRaw_fields]

/-! ### Command words -/

/-- A word that decodes to a command is that command's one word (R77, R78). -/
theorem encode_of_decodeCommand {w : CmdWord} {i : Instr} (h : decodeCommand w = .instr i) :
    i.wellFormed = true ∧ encode i = .command w := by
  have hall : ∀ w : CmdWord, decodeCommand w = .reservedCommand w ∨
      ∃ i ∈ [Instr.reset, .poll, .detect, .detect1200, .detect9600],
        decodeCommand w = .instr i ∧ i.wellFormed = true ∧ encode i = .command w := by decide
  obtain hreserved | ⟨j, -, hj, hword⟩ := hall w
  · rw [hreserved] at h; cases h
  · obtain rfl : j = i := Decoded.instr.inj (hj.symm.trans h)
    exact hword

/-! ### Both ports -/

/-- Settles O1: the two rows with fields get them back from the joined word and their class from their well-formedness; the
word of every other row is a literal. -/
theorem decodeOfEncodeIsIdentity : Obligations.DecodeOfEncodeIsIdentity := by
  unfold Obligations.DecodeOfEncodeIsIdentity
  intro i hwf
  cases i with
  | byteParityBad p d =>
    have hbad : parityBad (joinRaw p d) := of_decide_eq_true hwf
    simp only [encode, decode, decodeByte_of_parityBad hbad, parityBit_joinRaw, strip_joinRaw]
  | byteOther p d =>
    obtain ⟨hodd, hother⟩ : ¬ parityBad (joinRaw p d) ∧ ¬ isNamed d := of_decide_eq_true hwf
    have hclass := decodeByte_of_not_isNamed hodd (by rwa [strip_joinRaw])
    simp only [encode, decode, hclass, parityBit_joinRaw, strip_joinRaw]
  | byteStx | byteEtx | byteLf | byteCr | byteTab | byteSp => decide
  | reset | poll | detect | detect1200 | detect9600 => decide

/-- Settles O2: each port on its own. -/
theorem encodeOfDecodeIsIdentity : Obligations.EncodeOfDecodeIsIdentity := by
  unfold Obligations.EncodeOfDecodeIsIdentity
  intro w i h
  cases w with
  | raw r =>
    obtain rfl : decodeByte r = i := Decoded.instr.inj h
    exact ⟨wellFormed_decodeByte r, encode_decodeByte r⟩
  | command w => exact encode_of_decodeCommand h

/-- Settles O3, by running the decoder on each word. -/
theorem tableWordsDecodeToTheirRows : Obligations.TableWordsDecodeToTheirRows := by
  unfold Obligations.TableWordsDecodeToTheirRows
  decide

/-- Settles O4: stripping is undone by the valid raw byte, and only valid bytes have odd parity. -/
theorem eachValueHasOneValidRawByte : Obligations.EachValueHasOneValidRawByte := by
  unfold Obligations.EachValueHasOneValidRawByte
  refine ⟨fun v => ⟨rfl, fun r => valid_strip_eq_iff r v⟩, parityBad_iff_ne_validRaw, ?_⟩
  decide +kernel

/-- Settles O5: the class of a raw byte is read off its parity first and its value next. -/
theorem byteClassFollowsParityAndValue : Obligations.ByteClassFollowsParityAndValue := by
  unfold Obligations.ByteClassFollowsParityAndValue
  intro r
  refine ⟨decodeByte_of_parityBad, fun hodd => ?_⟩
  have hparity : ¬ parityBad r := by simp [parityBad, hodd]
  have named {v : Val} (h : strip r = v) : decodeByte r = decodeByte (validRaw v) := by
    rw [← h, ← eq_validRaw_strip hparity]
  exact ⟨named, named, named, named, named, named,
    fun hother => decodeByte_of_not_isNamed hparity fun h => hother ((isNamed_iff_mem _).mp h)⟩

/-! ### The outcome record -/

/-- R200: the code of each error kind. -/
theorem outcomeRecord_error (k : ErrorKind) :
    outcomeRecord (.error k) = ⟨2#2, some k.code, none, none, none, none, none⟩ := rfl

/-- Settles O7: one record for each kind of outcome. -/
theorem outcomeRecordCodes : Obligations.OutcomeRecordCodes := by
  unfold Obligations.OutcomeRecordCodes
  refine ⟨rfl, fun _ _ => outcomeRecord_produced, fun k => ⟨k.code, outcomeRecord_error k, ?_⟩, rfl, rfl⟩
  cases k <;> rfl

end Sys2Proof
end

