-- ==== Sys2Proof/Proofs/Invariant.lean ====
section
/-! The invariant of 10_state.md R32: the power-on state meets it, every step keeps it, and no step from it faults. -/

namespace Sys2Proof

namespace Machine

/-! ### What keeps the invariant -/

namespace State

/-- The invariant does not speak of the external agents (R21). -/
theorem Inv.withAgents {s : State} (h : s.Inv) (commands : Feed (Option CmdWord)) (source : List Raw)
    (arrivals : Feed (List Raw)) (line : Feed (Option Nat)) :
    { s with commands := commands, source := source, arrivals := arrivals, line := line }.Inv :=
  ⟨h.config, h.buffer, h.split, h.tag, h.data, h.detector, h.outcome⟩

theorem Inv.deliver {s : State} (h : s.Inv) : s.deliver.Inv :=
  h.withAgents _ _ _ _

theorem Inv.withSource {s : State} (h : s.Inv) (q : List Raw) : (s.withSource q).Inv :=
  h.withAgents _ _ _ _

theorem Inv.withoutOutcome {s : State} (h : s.Inv) : { s with outcome := none }.Inv :=
  ⟨h.config, h.buffer, h.split, h.tag, h.data, h.detector, fun _ => rfl⟩

/-- Outside a running DETECT, `MIN` and `IDX` hold no value (R29). -/
theorem Inv.detector_none {s : State} (h : s.Inv) (ha : s.activity ≠ .detecting) : s.min = none ∧ s.idx = none :=
  h.detector.2 ha

theorem Inv.finished {s : State} (h : s.Inv) (ha : s.activity ≠ .detecting) (o : CmdOutcome) : (s.finished o).Inv :=
  ⟨h.config, h.buffer, h.split, h.tag, h.data, ⟨nofun, fun _ => h.detector_none ha⟩, fun hne => absurd rfl hne⟩

theorem Inv.cleared {s : State} (h : s.Inv) : s.cleared.Inv :=
  ⟨h.config, .cleared s, .inl rfl, nofun, nofun, h.detector, h.outcome⟩

theorem Inv.errored {s : State} (h : s.Inv) (ha : s.activity ≠ .detecting) (k : ErrorKind) : (s.errored k).Inv :=
  h.cleared.finished ha (.error k)

/-- A move to `AFS` or `ADFE` keeps the invariant, which asks nothing of the bytes there (R32). -/
theorem Inv.withParser {s : State} (h : s.Inv) {p : ParserState} (hpt : p ≠ .pt) (hpd : p ≠ .pd) :
    { s with parser := p }.Inv :=
  ⟨h.config, h.buffer, h.split, fun hp => absurd hp hpt, fun hp => absurd hp hpd, h.detector, h.outcome⟩

/-- An emptied buffer meets what R32 asks outside `PD`. -/
theorem Inv.emptied {s : State} (h : s.Inv) {p : ParserState} (hpd : p ≠ .pd) :
    { s with parser := p, len := 0 }.Inv := by
  obtain ⟨hlength, -, -⟩ := h.buffer
  exact ⟨h.config, ⟨hlength, Nat.zero_le _, nofun⟩, h.split, fun _ => ⟨Nat.zero_le _, nofun⟩,
    fun hp => absurd hp hpd, h.detector, h.outcome⟩

end State

/-! ### Byte steps -/

section

variable {s : State} {v : Val}

theorem cell_pushed_len_of_inv (h : s.Inv) (hl : s.len < s.cfg.bufCap) : (s.pushed v).cell s.len = some v :=
  State.cell_pushed_len v (h.buffer.1 ▸ hl)

/-- R147: a stored tag byte. -/
theorem State.Inv.pushed_tag (h : s.Inv) (hpt : s.parser = .pt) (hv : ¬ isSplitter v) (hne : s.len ≠ Config.tagCap)
    (hl : s.len < s.cfg.bufCap) : (s.pushed v).Inv := by
  obtain ⟨hcap, hclean⟩ := h.tag hpt
  refine ⟨h.config, h.buffer.pushed v hl, h.split, fun _ => ⟨Nat.lt_of_le_of_ne hcap hne, fun i hi => ?_⟩,
    fun hpd => by simp [hpt] at hpd, h.detector, h.outcome⟩
  obtain hlt | rfl := Nat.lt_succ_iff_lt_or_eq.mp hi
  · exact hclean.pushed v (Nat.le_refl _) i hlt
  · rw [cell_pushed_len_of_inv h hl]
    simpa [isSplitter, not_or] using hv

/-- R146: the first splitter, behind a tag without one, becomes the active splitter. -/
theorem State.Inv.pushed_splitter (h : s.Inv) (hpt : s.parser = .pt) (hv : isSplitter v) (hl : s.len < s.cfg.bufCap) :
    { s.pushed v with split := v, parser := .pd }.Inv := by
  obtain ⟨hcap, hclean⟩ := h.tag hpt
  have hdata : { s.pushed v with split := v, parser := .pd }.DataOk := fun _ =>
    ⟨hv, Nat.le_add_left _ _, s.len, hcap, Nat.lt_succ_self _, cell_pushed_len_of_inv h hl,
      hclean.pushed v (Nat.le_refl _)⟩
  exact ⟨h.config, h.buffer.pushed v hl, .inr hv, nofun, hdata, h.detector, h.outcome⟩

/-- R148: a stored data byte stands behind the active splitter and leaves it where it is. -/
theorem State.Inv.pushed_data (h : s.Inv) (hpd : s.parser = .pd) (hl : s.len < s.cfg.bufCap) : (s.pushed v).Inv := by
  obtain ⟨hsplit, hpos, t, htcap, htlen, hcell, hclean⟩ := h.data hpd
  have hdata : (s.pushed v).DataOk := fun _ =>
    ⟨hsplit, Nat.le_succ_of_le hpos, t, htcap, Nat.lt_succ_of_lt htlen,
      (State.cell_pushed_ne v s (Nat.ne_of_lt htlen)).trans hcell, hclean.pushed v (Nat.le_of_lt htlen)⟩
  exact ⟨h.config, h.buffer.pushed v hl, h.split, fun hpt => by simp [hpd] at hpt, hdata, h.detector, h.outcome⟩

end

/-- A byte step of a running POLL keeps the invariant. -/
theorem exec_byte_keeps_inv {i : Instr} {s t : State} (hi : isByte i = true) (hwf : i.wellFormed = true) (h : s.Inv)
    (hpoll : s.activity = .polling) (hexec : exec i s = .next t) : t.Inv := by
  have hnd : s.activity ≠ .detecting := by simp [hpoll]
  have answer := exec_byte_answer hi s
  generalize exec i s = o at answer hexec
  cases answer <;> cases hexec
  case ignored => exact h
  case frameStart => exact h.emptied nofun
  case frameEnd => exact h.withParser nofun nofun
  case datasetStart => exact h.emptied nofun
  case tagByte v hpt hv hne hl => exact h.pushed_tag hpt (hv hwf) hne hl
  case splitter v hpt hv hl => exact h.pushed_splitter hpt hv hl
  case dataByte v hpd hl => exact h.pushed_data hpd hl
  case produced tag data _ _ _ => exact (h.withParser (p := .adfe) nofun nofun).finished hnd _
  case error k _ _ => exact h.errored hnd k

/-- A byte step from the invariant answers a next state: there is room for the byte (R52), and Validate reads only valid
cells (R51). -/
theorem exec_byte_next {i : Instr} {s : State} (hi : isByte i = true) (h : s.Inv) : ∃ t, exec i s = .next t := by
  have answer := exec_byte_answer hi s
  generalize exec i s = o at answer ⊢
  cases answer
  case appendFault hpast =>
    have hcap : 8 + 1 ≤ s.cfg.bufCap := h.config
    obtain ⟨hpt, hfull⟩ | ⟨-, hbeyond⟩ := hpast
    · obtain ⟨htag, -⟩ := h.tag hpt
      exact absurd (Nat.lt_of_lt_of_le (Nat.lt_succ_of_le htag) hcap) hfull
    · obtain ⟨-, hlen, -⟩ := h.buffer
      omega
  case readFault hpd hbad =>
    obtain ⟨-, hpos, -⟩ := h.data hpd
    exact absurd ⟨h.buffer, hpos⟩ hbad
  all_goals exact ⟨_, rfl⟩

/-! ### Commands -/

/-- Everything a command answers in the step that takes it. -/
theorem exec_command_cases {i : Instr} (hi : i ∈ [Instr.reset, .poll, .detect, .detect1200, .detect9600]) (s : State) :
    (i = .reset ∧ exec i s = .next (s.cleared.finished .empty)) ∨
    (i = .poll ∧ exec i s = .next { s with activity := .polling }) ∨
    (i = .detect ∧ exec i s = .next { s with activity := .detecting, min := some .inf, idx := some 0 }) ∨
    (∃ r, i ∈ [Instr.detect1200, .detect9600] ∧ exec i s = .next (s.finished (.rate r))) := by
  simp only [List.mem_cons, List.not_mem_nil, or_false] at hi
  obtain rfl | rfl | rfl | rfl | rfl := hi
  · exact .inl ⟨rfl, rfl⟩
  · exact .inr (.inl ⟨rfl, rfl⟩)
  · exact .inr (.inr (.inl ⟨rfl, rfl⟩))
  · exact .inr (.inr (.inr ⟨.b1200, by decide, rfl⟩))
  · exact .inr (.inr (.inr ⟨.b9600, by decide, rfl⟩))

theorem exec_command_next {i : Instr} (hi : i ∈ [Instr.reset, .poll, .detect, .detect1200, .detect9600]) (s : State) :
    ∃ t, exec i s = .next t := by
  obtain ⟨-, e⟩ | ⟨-, e⟩ | ⟨-, e⟩ | ⟨_, -, e⟩ := exec_command_cases hi s <;> exact ⟨_, e⟩

/-- A command that an idle block takes keeps the invariant: the outcome before it is gone, and DETECT gives `MIN` and `IDX`
their first values (R103). -/
theorem exec_command_keeps_inv {i : Instr} {s t : State} (hi : i ∈ [Instr.reset, .poll, .detect, .detect1200, .detect9600])
    (h : s.Inv) (hidle : s.activity = .idle) (hnone : s.outcome = none) (hexec : exec i s = .next t) : t.Inv := by
  have hnd : s.activity ≠ .detecting := by simp [hidle]
  obtain ⟨-, e⟩ | ⟨-, e⟩ | ⟨-, e⟩ | ⟨r, -, e⟩ := exec_command_cases hi s <;>
    obtain rfl := Host.Outcome.next.inj (e.symm.trans hexec)
  · exact h.cleared.finished hnd _
  · exact ⟨h.config, h.buffer, h.split, h.tag, h.data, ⟨nofun, fun _ => h.detector_none hnd⟩, fun _ => hnone⟩
  · have hdetector : { s with activity := .detecting, min := some .inf, idx := some 0 }.DetectorOk := by
      simp [State.DetectorOk]
    exact ⟨h.config, h.buffer, h.split, h.tag, h.data, hdetector, fun _ => hnone⟩
  · exact h.finished hnd _

/-! ### DETECT -/

theorem PulseMin.lower_ne_inf (d : Nat) (m : PulseMin) : m.lower d ≠ .inf := by
  cases m <;> nofun

/-- A turn of a running DETECT keeps the invariant: a sample gives `MIN` a width and is counted up to `N_SAMPLES`, and the
classification takes both values away (R103, D16). -/
theorem detectTurn_keeps_inv {s t : State} (h : s.Inv) (ha : s.activity = .detecting) (hturn : detectTurn s = .next t) :
    t.Inv := by
  obtain ⟨m, k, -, -, -, -, e⟩ | ⟨m, k, d, -, -, hlt, -, e⟩ | ⟨m, k, -, -, -, e⟩ | ⟨-, e⟩ := detectTurn_cases s
  · obtain rfl := Host.Outcome.next.inj (e.symm.trans hturn)
    exact h.withAgents _ _ _ _
  · obtain rfl := Host.Outcome.next.inj (e.symm.trans hturn)
    have hdetector : { s with line := s.line.rest, min := some (m.lower d), idx := some (k + 1) }.DetectorOk := by
      simpa [State.DetectorOk, ha, PulseMin.lower_ne_inf] using hlt
    exact ⟨h.config, h.buffer, h.split, h.tag, h.data, hdetector, h.outcome⟩
  · obtain rfl := Host.Outcome.next.inj (e.symm.trans hturn)
    exact ⟨h.config, h.buffer, h.split, h.tag, h.data, ⟨nofun, fun _ => ⟨rfl, rfl⟩⟩, fun hne => absurd rfl hne⟩
  · cases e.symm.trans hturn

theorem detectTurn_next {s : State} (h : s.Inv) (ha : s.activity = .detecting) : ∃ t, detectTurn s = .next t := by
  obtain ⟨hmin, hidx, -⟩ := h.detector.1 ha
  obtain ⟨_, _, -, -, -, -, e⟩ | ⟨_, _, _, -, -, -, -, e⟩ | ⟨_, _, -, -, -, e⟩ | ⟨hgone, -⟩ := detectTurn_cases s
  · exact ⟨_, e⟩
  · exact ⟨_, e⟩
  · exact ⟨_, e⟩
  · exact absurd hgone (by simp [hmin, hidx])

/-! ### Steps -/

theorem step_keeps_inv {s t : State} (h : s.Inv) (hstep : step s = .next t) : t.Inv := by
  have answer := step_answer s
  generalize step s = o at answer hstep
  cases answer with
  | illFormed _ => cases hstep
  | waits _ _ =>
    obtain rfl := Host.Outcome.next.inj hstep
    exact h.withAgents _ _ _ _
  | command w i hidle _ _ hi =>
    exact exec_command_keeps_inv hi (h.withoutOutcome.withAgents _ _ _ _) hidle rfl hstep
  | reserved _ _ _ _ => cases hstep
  | drained hpoll _ =>
    obtain rfl := Host.Outcome.next.inj hstep
    exact h.deliver.finished (by simp [hpoll]) _
  | byte r q hpoll _ =>
    exact exec_byte_keeps_inv (isByte_decodeByte r) (wellFormed_decodeByte r) (h.deliver.withSource q) hpoll hstep
  | detects ha => exact detectTurn_keeps_inv h.deliver ha hstep

theorem step_ne_fault_of_inv {s : State} (h : s.Inv) (f : Fault) : step s ≠ .fault f := by
  have next_ne_fault {o : Out} (ho : ∃ t, o = .next t) : o ≠ .fault f := by
    obtain ⟨t, rfl⟩ := ho
    nofun
  have answer := step_answer s
  generalize step s = o at answer ⊢
  cases answer with
  | illFormed _ | waits _ _ | reserved _ _ _ _ | drained _ _ => nofun
  | command w i _ _ _ hi => exact next_ne_fault (exec_command_next hi _)
  | byte r q _ _ => exact next_ne_fault (exec_byte_next (isByte_decodeByte r) (h.deliver.withSource q))
  | detects ha => exact next_ne_fault (detectTurn_next h.deliver ha)

/-- At power-on the block is idle, its parser is cleared, and `MIN` and `IDX` hold no value (R230). -/
theorem State.inv_reset : State.reset.Inv :=
  ⟨by decide, .cleared State.reset, .inl rfl, nofun, nofun, ⟨nofun, fun _ => ⟨rfl, rfl⟩⟩, fun hne => absurd rfl hne⟩

end Machine

open Machine

/-- Settles O36: at power-on every part of the invariant is about cleared registers. -/
theorem resetMeetsInvariant : Obligations.ResetMeetsInvariant := by
  unfold Obligations.ResetMeetsInvariant
  exact State.inv_reset

/-- Settles O37: whatever a step answers, a wait, a command, a byte step, a turn of DETECT, keeps each part. -/
theorem stepKeepsInvariant : Obligations.StepKeepsInvariant := by
  unfold Obligations.StepKeepsInvariant
  exact fun _ _ => step_keeps_inv

/-- Settles O38: from the invariant a command, a byte step and a turn of DETECT all answer a next state. -/
theorem invariantStepNeverFaults : Obligations.InvariantStepNeverFaults := by
  unfold Obligations.InvariantStepNeverFaults
  exact fun _ => step_ne_fault_of_inv

end Sys2Proof
end

