-- ==== Sys2Proof/Proofs/StepEquations.lean ====
section
/-! What one step is in each of its situations, as an equation: an idle block, a polling one, a refused configuration
(20_memory.md R53, R58, 41_poll_and_reset.md R121, 00_scope.md R9). -/

namespace Sys2Proof

namespace Machine

section

variable {s : State}

theorem step_of_illFormed (h : ¬ s.cfg.wf) : step s = .refused (.illFormedConfig s.cfg.bufCap) := if_neg h

theorem step_idle_of_no_command (hwf : s.cfg.wf) (hidle : s.activity = .idle) (hc : s.commands.head none = none) :
    step s = .next { s.deliver with commands := s.commands.rest } := by
  simp only [step, hwf, turn, hidle, idleTurn, State.deliver_commands, hc, if_true]

theorem step_idle_of_command {w : CmdWord} {i : Instr} (hwf : s.cfg.wf) (hidle : s.activity = .idle)
    (hc : s.commands.head none = some w) (hd : decodeCommand w = .instr i) :
    step s = exec i { s.deliver with commands := s.commands.rest, outcome := none } := by
  simp only [step, hwf, turn, hidle, idleTurn, State.deliver_commands, hc, hd, if_true]

theorem step_polling_of_nil (hwf : s.cfg.wf) (hpoll : s.activity = .polling)
    (hq : s.source ++ s.arrivals.head [] = []) : step s = .next (s.deliver.finished .empty) := by
  simp only [step, hwf, turn, hpoll, pollTurn, State.deliver_source, hq, finish, if_true]

theorem step_polling_of_cons {r : Raw} {q : List Raw} (hwf : s.cfg.wf) (hpoll : s.activity = .polling)
    (hq : s.source ++ s.arrivals.head [] = r :: q) : step s = exec (decodeByte r) (s.deliver.withSource q) := by
  simp only [step, hwf, turn, hpoll, pollTurn, State.deliver_source, hq, if_true]

/-- A byte step to which the transport adds nothing. -/
theorem step_polling_of_silent {r : Raw} {q : List Raw} (hwf : s.cfg.wf) (hpoll : s.activity = .polling)
    (hsilent : s.arrivals = .silent) (hq : s.source = r :: q) : step s = exec (decodeByte r) (s.withSource q) := by
  have hhead : s.source ++ s.arrivals.head [] = r :: q := by simp [hq, hsilent]
  rw [step_polling_of_cons hwf hpoll hhead, State.deliver_of_silent hsilent]

/-- The end of a drain to which the transport adds nothing. -/
theorem step_polling_of_silent_nil (hwf : s.cfg.wf) (hpoll : s.activity = .polling) (hsilent : s.arrivals = .silent)
    (hq : s.source = []) : step s = .next (s.finished .empty) := by
  have hempty : s.source ++ s.arrivals.head [] = [] := by simp [hq, hsilent]
  rw [step_polling_of_nil hwf hpoll hempty, State.deliver_of_silent hsilent]

theorem step_detecting (hwf : s.cfg.wf) (ha : s.activity = .detecting) : step s = detectTurn s.deliver := by
  simp only [step, hwf, turn, ha, if_true]

/-- A run and one more step. -/
theorem run_then_step {j : Nat} {t u : State} (hrun : run j s = .next t) (hstep : step t = .next u) :
    run (j + 1) s = .next u :=
  (run_add hrun 1).trans (run_one_of_next hstep)

/-! ### CR outside `PD` -/

theorem exec_byteCr_afs (h : s.parser = .afs) : exec .byteCr s = .next s := by
  simp only [exec, execByteCr, h]

theorem exec_byteCr_adfe (h : s.parser = .adfe) : exec .byteCr s = .next (s.errored .unexpectedByte) := by
  simp only [exec, execByteCr, h, raiseError]

theorem exec_byteCr_pt (h : s.parser = .pt) : exec .byteCr s = tagAppend Ascii.cr s := by
  simp only [exec, execByteCr, h]

end

/-- R122: a parity-bad byte takes the error entry in every parser state. -/
@[simp] theorem exec_byteParityBad (p : BitVec 1) (d : Val) (s : State) :
    exec (.byteParityBad p d) s = .next (s.errored .parityError) := rfl

@[simp] theorem exec_poll (s : State) : exec .poll s = .next { s with activity := .polling } := rfl

@[simp] theorem exec_detect (s : State) :
    exec .detect s = .next { s with activity := .detecting, min := some .inf, idx := some 0 } := rfl

end Machine

open Machine

/-- Settles O8: the idle block's turn is the transport's turn and the decoded command. -/
theorem stepRunsTheDecodedCommand : Obligations.StepRunsTheDecodedCommand := by
  unfold Obligations.StepRunsTheDecodedCommand
  intro s w i hwf hidle hc hd
  exact step_idle_of_command hwf hidle hc hd

/-- Settles O9: every raw byte has a class, and the head byte's class is what the step executes. -/
theorem stepRunsTheDecodedByte : Obligations.StepRunsTheDecodedByte := by
  unfold Obligations.StepRunsTheDecodedByte
  intro s r q hwf hpoll hq
  exact ⟨decodeByte r, rfl, step_polling_of_cons hwf hpoll hq⟩

/-- Settles O10: with no byte in the source the drain loop ends. -/
theorem pollOfEmptySourceReturnsEmpty : Obligations.PollOfEmptySourceReturnsEmpty := by
  unfold Obligations.PollOfEmptySourceReturnsEmpty
  intro s hwf hpoll hq
  exact step_polling_of_nil hwf hpoll hq

/-- Settles O11: without a command only the feeds move. -/
theorem idleBlockWaitsForACommand : Obligations.IdleBlockWaitsForACommand := by
  unfold Obligations.IdleBlockWaitsForACommand
  intro s hwf hidle hc
  exact step_idle_of_no_command hwf hidle hc

/-- Settles O12: a capacity below 9 is ill-formed, and the step tests that first. -/
theorem smallBufferIsRefused : Obligations.SmallBufferIsRefused := by
  unfold Obligations.SmallBufferIsRefused
  intro s hsmall
  exact step_of_illFormed (Nat.not_le_of_lt hsmall)

/-- Settles O15: both commands only begin. -/
theorem pollAndDetectBegin : Obligations.PollAndDetectBegin := by
  unfold Obligations.PollAndDetectBegin
  exact fun s => ⟨exec_poll s, exec_detect s⟩

/-- Settles O22: the head byte has left the source when its class takes the error entry. -/
theorem parityBadByteEndsPoll : Obligations.ParityBadByteEndsPoll := by
  unfold Obligations.ParityBadByteEndsPoll
  refine ⟨exec_byteParityBad, fun s r q hwf hpoll hq hbad => ?_⟩
  rw [step_polling_of_cons hwf hpoll hq, decodeByte_of_parityBad hbad]
  exact exec_byteParityBad _ _ _

/-- Settles O26: outside `PD` CR has no meaning of its own: ignored, unexpected, or appended to the tag. -/
theorem crStepOutsideData : Obligations.CrStepOutsideData := by
  unfold Obligations.CrStepOutsideData
  refine ⟨by decide, fun s hwf => ⟨exec_byteCr_afs, exec_byteCr_adfe, fun h hl => ?_, fun h hl => ?_⟩⟩
  · exact (exec_byteCr_pt h).trans (tagAppend_of_len_eq _ hl)
  · exact (exec_byteCr_pt h).trans (tagAppend_of_len_lt _ hwf hl)

end Sys2Proof
end

