-- ==== Sys2Proof/Proofs/Poll.lean ====
section
/-! The steps of a POLL: what a byte step leaves alone, how it can end POLL, and what it then ends with
(42_framer_bytes.md R140 to R148, 43_dataset_validation.md R170 to R178, 60_exceptions.md R209 to R211). -/

namespace Sys2Proof

namespace Machine

/-! ### What a byte step leaves alone -/

theorem exec_byte_frame {i : Instr} {s t : State} (hi : isByte i = true) (hexec : exec i s = .next t) :
    t.min = s.min ∧ t.idx = s.idx ∧ t.cfg = s.cfg ∧ t.commands = s.commands ∧ t.source = s.source ∧
      t.arrivals = s.arrivals ∧ t.line = s.line := by
  have answer := exec_byte_answer hi s
  generalize exec i s = o at answer hexec
  cases answer <;> cases hexec <;> exact ⟨rfl, rfl, rfl, rfl, rfl, rfl, rfl⟩

/-- A byte step that does not end POLL stores at most one byte, in the cell at `LEN` (R52). -/
theorem exec_byte_cell {i : Instr} {s t : State} (hi : isByte i = true) (hexec : exec i s = .next t)
    (hpoll : t.activity = .polling) {j : Nat} (hj : j ≠ s.len) : t.cell j = s.cell j := by
  have answer := exec_byte_answer hi s
  generalize exec i s = o at answer hexec
  cases answer <;> cases hexec
  case ignored | frameStart | frameEnd | datasetStart => rfl
  case tagByte v _ _ _ _ => exact State.cell_pushed_ne v s hj
  case splitter v _ _ _ => exact State.cell_pushed_ne v s hj
  case dataByte v _ _ => exact State.cell_pushed_ne v s hj
  case produced => simp at hpoll
  case error => simp at hpoll

/-! ### How a byte step ends POLL -/

/-- A byte step leaves the transaction and the outcome alone, or ends POLL with a dataset or through the error entry; with
InvalidSplitter only where `PD` has no active splitter (R124, R171, R209). -/
theorem exec_byte_ends {i : Instr} {s t : State} (hi : isByte i = true) (hexec : exec i s = .next t) :
    (t.activity = s.activity ∧ t.outcome = s.outcome) ∨
    (∃ tag data, s.parser = .pd ∧ validate s = produce tag data s ∧ t = s.afterProduced tag data) ∨
    (∃ k, k ≠ .detectionFailed ∧ (k = .invalidSplitter → s.parser = .pd ∧ ¬ isSplitter s.split) ∧ t = s.errored k) := by
  have answer := exec_byte_answer hi s
  generalize exec i s = o at answer hexec
  cases answer <;> cases hexec
  case produced tag data _ hpd hv => exact .inr (.inl ⟨tag, data, hpd, hv, rfl⟩)
  case error k hk hs => exact .inr (.inr ⟨k, hk, hs, rfl⟩)
  all_goals exact .inl ⟨rfl, rfl⟩

/-- What one step of a POLL from the invariant comes to. -/
inductive PollEnd (s : State) : State → Prop where
  /-- POLL goes on, and the head byte is gone. -/
  | goesOn {r : Raw} {q : List Raw} {t : State} (hq : s.source ++ s.arrivals.head [] = r :: q)
      (ha : t.activity = .polling) (ho : t.outcome = none) : PollEnd s t
  /-- The source has no byte (R125). -/
  | drained : PollEnd s (s.deliver.finished .empty)
  /-- A dataset (R178). -/
  | produced {r : Raw} {q : List Raw} {tag data : List Val} (hq : s.source ++ s.arrivals.head [] = r :: q)
      (hpd : s.parser = .pd)
      (hv : validate (s.deliver.withSource q) = produce tag data (s.deliver.withSource q)) :
      PollEnd s ((s.deliver.withSource q).afterProduced tag data)
  /-- A decoder error through the error entry (R209); the invariant shuts out InvalidSplitter (R206). -/
  | errored {r : Raw} {q : List Raw} {k : ErrorKind} (hq : s.source ++ s.arrivals.head [] = r :: q)
      (hdetect : k ≠ .detectionFailed) (hsplitter : k ≠ .invalidSplitter) : PollEnd s ((s.deliver.withSource q).errored k)

theorem step_polling_end {s t : State} (h : s.Inv) (hpoll : s.activity = .polling) (hstep : step s = .next t) :
    PollEnd s t := by
  have hnone : s.outcome = none := h.outcome (by simp [hpoll])
  obtain rfl | ⟨r, q, hq, hexec⟩ := step_polling_cases hpoll hstep
  · exact .drained
  · obtain ⟨ha, ho⟩ | ⟨tag, data, hpd, hv, rfl⟩ | ⟨k, hk, hs, rfl⟩ := exec_byte_ends (isByte_decodeByte r) hexec
    · exact .goesOn hq (ha.trans hpoll) (ho.trans hnone)
    · exact .produced hq hpd hv
    · refine .errored hq hk fun hsplitter => ?_
      obtain ⟨hpd, hnosplit⟩ := hs hsplitter
      obtain ⟨hsplit, -⟩ := h.data hpd
      exact hnosplit hsplit

/-! ### The fields of a dataset -/

/-- The first splitter of a dataset is the one behind the tag, and three bytes are not data: two splitters and the checksum
(R176, R177). -/
theorem produced_fields_fit {s : State} {tag data : List Val} (h : s.Inv) (hpd : s.parser = .pd)
    (hv : validate s = produce tag data s) : tag.length ≤ 8 ∧ data.length ≤ s.cfg.bufCap - 3 := by
  obtain ⟨hsplit, hpos, t, htcap, htlen, hcell, hclean⟩ := h.data hpd
  obtain ⟨-, hlen, -⟩ := h.buffer
  have not_errored (k : ErrorKind) (he : validate s = .next (s.errored k)) : False :=
    produce_ne_errored tag data k s (hv.symm.trans he)
  obtain ⟨-, he⟩ | ⟨-, he⟩ | ⟨-, he⟩ | ⟨-, tag', data', he, ⟨p, hp, hcellp⟩, htag, hdata⟩ := validate_cases h.buffer hpos
  · exact (not_errored _ he).elim
  · exact (not_errored _ he).elim
  · exact (not_errored _ he).elim
  · obtain ⟨rfl, rfl⟩ : tag' = tag ∧ data' = data := by
      simpa using congrArg State.outcome (Host.Outcome.next.inj (he.symm.trans hv))
    have htp : t ≤ p := by
      by_contra hlt
      obtain ⟨hnotab, hnosp⟩ := hclean p (by omega)
      obtain htab | hsp := hsplit
      · exact hnotab (hcellp.trans (congrArg some htab))
      · exact hnosp (hcellp.trans (congrArg some hsp))
    have := htag t (by omega) hcell
    exact ⟨Nat.le_trans this htcap, by omega⟩

/-! ### The checksum -/

theorem extract_ne_invalidChecksum (body : List Val) (s : State) :
    extract body s ≠ .next (s.errored .invalidChecksum) := by
  intro h
  obtain ⟨-, -, he⟩ | ⟨_, _, _, -, -, -, -, he⟩ := extract_cases body s
  · have houtcome := congrArg State.outcome (Host.Outcome.next.inj (he.symm.trans h))
    simp at houtcome
  · exact produce_ne_errored _ _ _ s (he.symm.trans h)

/-- The checksum is tested before the fields (R210), and no answer about the fields is InvalidChecksum. -/
theorem exec_byteCr_eq_invalidChecksum_iff {s : State} {body : List Val} {c : Val} (hpd : s.parser = .pd)
    (hsplit : isSplitter s.split) (hholds : s.Holds (body ++ [c])) :
    exec .byteCr s = .next (s.errored .invalidChecksum) ↔ checksum (covered s.split body) ≠ c.toNat := by
  rw [exec_byteCr_pd hpd, validate, if_pos hsplit, checkAndExtract_of_holds hholds]
  split
  · next hright => exact iff_of_false (extract_ne_invalidChecksum body s) (not_not_intro hright)
  · next hwrong => exact iff_of_true rfl hwrong

/-! ### The end of a POLL -/

/-- From the invariant and with nothing to come, POLL loses one byte of the source a step until it ends (R129). -/
theorem poll_ends {s : State} (h : s.Inv) (hpoll : s.activity = .polling) (hsilent : s.arrivals = .silent) :
    ∃ k t, k ≤ s.source.length + 1 ∧ run k s = .next t ∧ t.activity = .idle ∧ t.outcome ≠ none := by
  generalize hq : s.source = q
  induction q generalizing s with
  | nil =>
    have hstep := step_polling_of_silent_nil h.config hpoll hsilent hq
    exact ⟨1, _, Nat.le_refl _, run_one_of_next hstep, rfl, nofun⟩
  | cons r q ih =>
    obtain ⟨t, hexec⟩ := exec_byte_next (isByte_decodeByte r) (h.withSource q)
    have hstep : step s = .next t := (step_polling_of_silent h.config hpoll hsilent hq).trans hexec
    have hdone (hidle : t.activity = .idle) (hout : t.outcome ≠ none) :
        ∃ k u, k ≤ (r :: q).length + 1 ∧ run k s = .next u ∧ u.activity = .idle ∧ u.outcome ≠ none :=
      ⟨1, t, by simp, run_one_of_next hstep, hidle, hout⟩
    obtain ⟨ha, -⟩ | ⟨tag, data, -, -, rfl⟩ | ⟨k, -, -, rfl⟩ := exec_byte_ends (isByte_decodeByte r) hexec
    · obtain ⟨-, -, -, -, hsource, harrivals, -⟩ := exec_byte_frame (isByte_decodeByte r) hexec
      obtain ⟨k, u, hk, hrun, hend⟩ :=
        ih (step_keeps_inv h hstep) (ha.trans hpoll) (harrivals.trans hsilent) hsource
      exact ⟨k + 1, u, Nat.succ_le_succ hk, (run_succ_of_next hstep k).trans hrun, hend⟩
    · exact hdone rfl nofun
    · exact hdone rfl nofun

end Machine

open Machine

/-- Settles O29, over the answers of a byte step. -/
theorem byteStepFrame : Obligations.ByteStepFrame := by
  unfold Obligations.ByteStepFrame
  intro i s t hi hexec
  exact exec_byte_frame hi hexec

/-- Settles O30: the stored byte goes to the cell at `LEN`, and the answers that clear the buffer end POLL. -/
theorem byteStepWritesOnlyTheNextCell : Obligations.ByteStepWritesOnlyTheNextCell := by
  unfold Obligations.ByteStepWritesOnlyTheNextCell
  intro i s t hi _ hexec hpoll j hj
  exact exec_byte_cell hi hexec hpoll hj

/-- Settles O31: Validate tests the splitter first, and the invariant records one in `PD`. -/
theorem invalidSplitterIsDefinedAndNeverHappens : Obligations.InvalidSplitterIsDefinedAndNeverHappens := by
  unfold Obligations.InvalidSplitterIsDefinedAndNeverHappens
  constructor
  · intro s hpd htab hsp
    have hnone : ¬ isSplitter s.split := not_or_intro htab hsp
    rw [exec_byteCr_pd hpd, validate, if_neg hnone]
    rfl
  · intro s t hinv hpoll hstep
    cases step_polling_end hinv hpoll hstep with
    | goesOn _ _ hnone => simp [hnone]
    | drained => simp
    | produced _ _ _ => simp
    | errored _ _ hsplitter => simpa using hsplitter

/-- Settles O32: under each splitter the sum written out is the checksum of the covered bytes. -/
theorem crRaisesInvalidChecksumOnMismatch : Obligations.CrRaisesInvalidChecksumOnMismatch := by
  unfold Obligations.CrRaisesInvalidChecksumOnMismatch
  intro s body c hpd hholds
  constructor
  · intro hsp
    have hcovered : covered s.split body = body.dropLast := if_pos hsp
    have hiff := exec_byteCr_eq_invalidChecksum_iff hpd (.inr hsp) hholds
    rwa [hcovered] at hiff
  · intro htab
    have hcovered : covered s.split body = body := if_neg (by rw [htab]; decide)
    have hiff := exec_byteCr_eq_invalidChecksum_iff hpd (.inl htab) hholds
    rwa [hcovered] at hiff

/-- Settles O39: of the ways a POLL step ends, only the error entry leaves an error. -/
theorem pollErrorIsPreciseAndResets : Obligations.PollErrorIsPreciseAndResets := by
  unfold Obligations.PollErrorIsPreciseAndResets
  intro s t k hinv hpoll hstep hout
  cases step_polling_end hinv hpoll hstep with
  | goesOn _ _ hnone => simp [hnone] at hout
  | drained => simp at hout
  | produced _ _ _ => simp at hout
  | @errored r q k' hq _ _ =>
    obtain rfl : k' = k := by simpa using hout
    exact ⟨r, q, hq, rfl⟩

/-- Settles O41: the invariant places the first splitter within `TAG_CAP` and all bytes within `BUF_CAP`. -/
theorem producedFieldsFit : Obligations.ProducedFieldsFit := by
  unfold Obligations.ProducedFieldsFit
  intro s t tag data hinv hpoll hstep hout
  cases step_polling_end hinv hpoll hstep with
  | goesOn _ _ hnone => simp [hnone] at hout
  | drained => simp at hout
  | @produced r q tag' data' _ hpd hv =>
    obtain ⟨rfl, rfl⟩ : tag' = tag ∧ data' = data := by simpa using hout
    have hfit := produced_fields_fit (hinv.deliver.withSource q) hpd hv
    exact hfit
  | errored _ _ _ => simp at hout

/-- Settles O46: each byte step of POLL shortens the source or ends POLL, and an empty source ends it. -/
theorem pollEndsWhenNothingArrives : Obligations.PollEndsWhenNothingArrives := by
  unfold Obligations.PollEndsWhenNothingArrives
  intro s hinv hpoll hsilent
  exact poll_ends hinv hpoll hsilent

end Sys2Proof
end

