-- ==== Sys2Proof/Proofs/Detect.lean ====
section
/-! DETECT without a hint: one sample, one wait, the classification, and whole runs of them (40_baud_detector.md R100 to R108,
70_reset_and_hazards.md R240). -/

namespace Sys2Proof

namespace Machine

/-! ### One step of a running DETECT -/

theorem wf_of_step_next {s t : State} (h : step s = .next t) : s.cfg.wf := by
  by_contra hill
  rw [step_of_illFormed hill] at h
  cases h

section

variable {s : State} {m : PulseMin} {k : Nat}

theorem step_detecting_of_wait (hwf : s.cfg.wf) (ha : s.activity = .detecting) (hm : s.min = some m) (hk : s.idx = some k)
    (hlt : k < 10) (hline : s.line.head none = none) : step s = .next { s.deliver with line := s.line.rest } := by
  have hlt' : k < Config.nSamples := hlt
  simp only [step_detecting hwf ha, detectTurn, sample, State.deliver_min, State.deliver_idx, State.deliver_line, hm, hk,
    hlt', hline, if_true]

theorem step_detecting_of_pulse {d : Nat} (hwf : s.cfg.wf) (ha : s.activity = .detecting) (hm : s.min = some m)
    (hk : s.idx = some k) (hlt : k < 10) (hline : s.line.head none = some d) :
    step s = .next { s.deliver with line := s.line.rest, min := some (m.lower d), idx := some (k + 1) } := by
  have hlt' : k < Config.nSamples := hlt
  simp only [step_detecting hwf ha, detectTurn, sample, State.deliver_min, State.deliver_idx, State.deliver_line, hm, hk,
    hlt', hline, if_true]

theorem step_detecting_of_done (hwf : s.cfg.wf) (ha : s.activity = .detecting) (hm : s.min = some m)
    (hk : s.idx = some 10) :
    step s = .next ({ s.deliver with min := none, idx := none }.finished (classify m)) := by
  have hdone : ¬ 10 < Config.nSamples := by decide
  simp only [step_detecting hwf ha, detectTurn, classifyMin, finish, State.deliver_min, State.deliver_idx, hm, hk, hdone,
    if_false]

end

/-- R103: the lower of `MIN` and the width, written out. -/
theorem PulseMin.lower_eq (d : Nat) (m : PulseMin) :
    m.lower d = match m with | .inf => .us d | .us n => .us (if n ≤ d then n else d) := by
  cases m <;> rfl

/-- A turn of DETECT leaves the parser, the source, the host and the configuration alone, and if it ends DETECT, then with
a rate or DetectionFailed (R105, R106). -/
theorem detectTurn_frame {s t : State} (h : detectTurn s = .next t) :
    s.SameParser t ∧ t.source = s.source ∧ t.commands = s.commands ∧ t.cfg = s.cfg ∧
      (t.activity = s.activity ∨ ∃ m, t.outcome = some (classify m)) := by
  obtain ⟨_, _, -, -, -, -, e⟩ | ⟨_, _, _, -, -, -, -, e⟩ | ⟨m, _, -, -, -, e⟩ | ⟨-, e⟩ := detectTurn_cases s
  · obtain rfl := Host.Outcome.next.inj (e.symm.trans h)
    exact ⟨⟨rfl, rfl, rfl, rfl⟩, rfl, rfl, rfl, .inl rfl⟩
  · obtain rfl := Host.Outcome.next.inj (e.symm.trans h)
    exact ⟨⟨rfl, rfl, rfl, rfl⟩, rfl, rfl, rfl, .inl rfl⟩
  · obtain rfl := Host.Outcome.next.inj (e.symm.trans h)
    exact ⟨⟨rfl, rfl, rfl, rfl⟩, rfl, rfl, rfl, .inr ⟨m, rfl⟩⟩
  · cases e.symm.trans h

/-- The same for a step of the whole machine, whose transport appends to the source. -/
theorem step_detecting_frame {s t : State} (ha : s.activity = .detecting) (h : step s = .next t) :
    s.SameParser t ∧ t.source = s.source ++ s.arrivals.head [] ∧ t.commands = s.commands ∧ t.cfg = s.cfg ∧
      (t.activity = .detecting ∨ ∃ m, t.outcome = some (classify m)) := by
  rw [step_detecting (wf_of_step_next h) ha] at h
  obtain ⟨hparser, hsource, hcommands, hcfg, hend⟩ := detectTurn_frame h
  exact ⟨hparser, hsource, hcommands, hcfg, hend.imp_left fun hruns => hruns.trans ha⟩

/-- A running DETECT on a silent line waits, with every register as it was (R107). -/
theorem step_detecting_of_silent {s : State} {m : PulseMin} {k : Nat} (hwf : s.cfg.wf) (ha : s.activity = .detecting)
    (hm : s.min = some m) (hk : s.idx = some k) (hlt : k < 10) (hline : s.line = .silent) : step s = .next s.deliver := by
  rw [step_detecting_of_wait hwf ha hm hk hlt (by simp [hline])]
  simp only [hline, Feed.rest_silent]
  rw [← hline]
  rfl

/-! ### The minimum of a list of turns -/

/-- What a turn of the line reader makes of `MIN`: nothing before it returns, then `min(MIN, d)` (R103, R107). -/
def PulseMin.afterTurn (m : PulseMin) : Option Nat → PulseMin
  | none => m
  | some d => m.lower d

/-- `m` is no higher than the minimum held. -/
def PulseMin.AtLeast (m : Nat) : PulseMin → Prop
  | .inf => True
  | .us n => m ≤ n

theorem PulseMin.inf_atLeast (m : Nat) : PulseMin.inf.AtLeast m := trivial

theorem PulseMin.AtLeast.lower {m d : Nat} {p : PulseMin} (h : p.AtLeast m) (hd : m ≤ d) : (p.lower d).AtLeast m := by
  cases p with
  | inf => exact hd
  | us n => exact Nat.le_min.mpr ⟨h, hd⟩

theorem PulseMin.AtLeast.lower_self {m : Nat} {p : PulseMin} (h : p.AtLeast m) : p.lower m = .us m := by
  cases p with
  | inf => rfl
  | us n => exact congrArg PulseMin.us (Nat.min_eq_right h)

theorem PulseMin.us_lower {m d : Nat} (hd : m ≤ d) : (PulseMin.us m).lower d = .us m :=
  congrArg PulseMin.us (Nat.min_eq_left hd)

/-- Once the smallest width has been seen, it stays the minimum. -/
theorem foldl_afterTurn_us {m : Nat} {turns : List (Option Nat)} (hle : ∀ w, some w ∈ turns → m ≤ w) :
    turns.foldl PulseMin.afterTurn (.us m) = .us m := by
  induction turns with
  | nil => rfl
  | cons turn turns ih =>
    have hstays : (PulseMin.us m).afterTurn turn = .us m := by
      cases turn with
      | none => rfl
      | some d => exact PulseMin.us_lower (hle d List.mem_cons_self)
    rw [List.foldl_cons, hstays]
    exact ih fun w hw => hle w (List.mem_cons_of_mem _ hw)

/-- The minimum over all turns is the smallest width among them, whatever their order, ties and waits (R108). -/
theorem foldl_afterTurn_of_smallest {m : Nat} {p : PulseMin} {turns : List (Option Nat)} (hp : p.AtLeast m)
    (hmem : some m ∈ turns) (hle : ∀ w, some w ∈ turns → m ≤ w) : turns.foldl PulseMin.afterTurn p = .us m := by
  induction turns generalizing p with
  | nil => simp at hmem
  | cons turn turns ih =>
    have hle' (w : Nat) (hw : some w ∈ turns) : m ≤ w := hle w (List.mem_cons_of_mem _ hw)
    rw [List.foldl_cons]
    obtain rfl | hrest := List.mem_cons.mp hmem
    · rw [PulseMin.afterTurn, hp.lower_self]
      exact foldl_afterTurn_us hle'
    · refine ih ?_ hrest hle'
      cases turn with
      | none => exact hp
      | some d => exact hp.lower (hle d List.mem_cons_self)

/-! ### Runs of DETECT -/

theorem State.SameParser.trans {s t u : State} (hst : s.SameParser t) (htu : t.SameParser u) : s.SameParser u := by
  obtain ⟨hparser, hlen, hsplit, hbuf⟩ := hst
  obtain ⟨hparser', hlen', hsplit', hbuf'⟩ := htu
  exact ⟨hparser'.trans hparser, hlen'.trans hlen, hsplit'.trans hsplit, hbuf'.trans hbuf⟩

/-- A running DETECT in the middle of its samples: `MIN`, `IDX`, and the turns of the line reader to come. -/
structure State.Samples (s : State) (m : PulseMin) (k : Nat) (turns : List (Option Nat)) : Prop where
  config : s.cfg.wf
  runs : s.activity = .detecting
  min : s.min = some m
  idx : s.idx = some k
  line : s.line.coming = turns

/-- One turn of the line reader: a wait, or a sample that is counted. -/
theorem State.Samples.step {s : State} {m : PulseMin} {k : Nat} {turn : Option Nat} {turns : List (Option Nat)}
    (h : s.Samples m k (turn :: turns)) (hlt : k < 10) :
    ∃ t, step s = .next t ∧ t.Samples (m.afterTurn turn) (k + [turn].countP Option.isSome) turns ∧ s.SameParser t ∧
      t.commands = s.commands := by
  have hhead := Feed.head_of_coming none turn turns h.line
  have hrest := Feed.rest_of_coming turn turns h.line
  cases turn with
  | none =>
    exact ⟨_, step_detecting_of_wait h.config h.runs h.min h.idx hlt hhead, ⟨h.config, h.runs, h.min, h.idx, hrest⟩,
      ⟨rfl, rfl, rfl, rfl⟩, rfl⟩
  | some d =>
    exact ⟨_, step_detecting_of_pulse h.config h.runs h.min h.idx hlt hhead, ⟨h.config, h.runs, rfl, rfl, hrest⟩,
      ⟨rfl, rfl, rfl, rfl⟩, rfl⟩

/-- All turns up to the one that brings the tenth sample, which is the last of them. -/
theorem State.Samples.run {s : State} {m : PulseMin} {k : Nat} {turns later : List (Option Nat)}
    (h : s.Samples m k (turns ++ later)) (hcount : k + turns.countP Option.isSome = 10)
    (hlast : ∀ turn ∈ turns.getLast?, turn.isSome = true) :
    ∃ t, run turns.length s = .next t ∧ t.Samples (turns.foldl PulseMin.afterTurn m) 10 later ∧ s.SameParser t ∧
      t.commands = s.commands := by
  induction turns generalizing s m k with
  | nil =>
    obtain rfl : k = 10 := hcount
    exact ⟨s, run_zero s, h, ⟨rfl, rfl, rfl, rfl⟩, rfl⟩
  | cons turn turns ih =>
    have hcount' : k + [turn].countP Option.isSome + turns.countP Option.isSome = 10 := by
      rw [Nat.add_assoc, ← List.countP_append]; exact hcount
    have hpos : 0 < (turn :: turns).countP Option.isSome :=
      List.countP_pos_iff.mpr ⟨_, List.getLast_mem (List.cons_ne_nil turn turns),
        hlast _ (List.getLast?_eq_some_getLast _)⟩
    have hlast' : ∀ x ∈ turns.getLast?, x.isSome = true := by
      cases turns with
      | nil => nofun
      | cons next turns => exact hlast
    obtain ⟨u, hstep, hu, hsame, hcommands⟩ := h.step (by omega)
    obtain ⟨t, hrun, ht, hsame', hcommands'⟩ := ih hu hcount' hlast'
    exact ⟨t, (run_succ_of_next hstep _).trans hrun, ht, hsame.trans hsame', hcommands'.trans hcommands⟩

/-- DETECT begins with `MIN = INF` and no sample (R103). -/
theorem step_begins_detect {s : State} {cs : List (Option CmdWord)} (hwf : s.cfg.wf) (hidle : s.activity = .idle)
    (hcommands : s.commands.coming = some 0x2#4 :: cs) :
    ∃ t, step s = .next t ∧ t.Samples .inf 0 s.line.coming ∧ s.SameParser t ∧ t.commands.coming = cs :=
  ⟨_, step_idle_of_command hwf hidle (Feed.head_of_coming none _ cs hcommands)
      (show decodeCommand 0x2#4 = .instr .detect by decide),
    ⟨hwf, rfl, rfl, rfl, rfl⟩, ⟨rfl, rfl, rfl, rfl⟩, Feed.rest_of_coming _ cs hcommands⟩

/-- The command, the samples and the classification (R100). -/
theorem run_detect {s : State} {turns later : List (Option Nat)} {cs : List (Option CmdWord)} {m : Nat} (hwf : s.cfg.wf)
    (hidle : s.activity = .idle) (hcommands : s.commands.coming = some 0x2#4 :: cs)
    (hcount : turns.countP Option.isSome = 10) (hlast : ∀ turn ∈ turns.getLast?, turn.isSome = true)
    (hline : s.line.coming = turns ++ later) (hmem : some m ∈ turns) (hle : ∀ w, some w ∈ turns → m ≤ w) :
    ∃ t, run (turns.length + 2) s = .next t ∧ t.activity = .idle ∧ s.SameParser t ∧ t.min = none ∧ t.idx = none ∧
      t.commands.coming = cs ∧ t.line.coming = later ∧ t.outcome = some (classify (.us m)) := by
  obtain ⟨b, hbegin, hb, hsame, hleft⟩ := step_begins_detect hwf hidle hcommands
  rw [hline] at hb
  obtain ⟨u, hrun, hu, hsame', hcommands'⟩ := hb.run (by rw [Nat.zero_add, hcount]) hlast
  have hmin := hu.min
  rw [foldl_afterTurn_of_smallest (PulseMin.inf_atLeast m) hmem hle] at hmin
  have hend := step_detecting_of_done hu.config hu.runs hmin hu.idx
  have hwhole := (run_succ_of_next hbegin (turns.length + 1)).trans (run_then_step hrun hend)
  exact ⟨_, hwhole, rfl, hsame.trans hsame', rfl, rfl, (congrArg Feed.coming hcommands').trans hleft, hu.line, rfl⟩

/-- A running DETECT on a silent line is still running after any number of steps (R240). -/
theorem run_detecting_of_silent {s : State} {m : PulseMin} {k : Nat} (hwf : s.cfg.wf) (ha : s.activity = .detecting)
    (hm : s.min = some m) (hk : s.idx = some k) (hlt : k < 10) (hline : s.line = .silent) (n : Nat) :
    ∃ t, run n s = .next t ∧ t.activity = .detecting ∧ t.outcome = s.outcome ∧ t.commands = s.commands := by
  induction n generalizing s with
  | zero => exact ⟨s, run_zero s, ha, rfl, rfl⟩
  | succ n ih =>
    obtain ⟨t, hrun, hend⟩ := ih (s := s.deliver) hwf ha hm hk hline
    exact ⟨t, (run_succ_of_next (step_detecting_of_silent hwf ha hm hk hlt hline) n).trans hrun, hend⟩

end Machine

open Machine

/-- Settles O16: a running DETECT whose line reader returns takes a sample. -/
theorem detectTakesASample : Obligations.DetectTakesASample := by
  unfold Obligations.DetectTakesASample
  intro s m k d hwf ha hm hk hlt hline
  rw [step_detecting_of_pulse hwf ha hm hk hlt hline, PulseMin.lower_eq]
  rfl

/-- Settles O17: one whose line reader does not return waits. -/
theorem detectWaitsForTheLine : Obligations.DetectWaitsForTheLine := by
  unfold Obligations.DetectWaitsForTheLine
  intro s m k hwf ha hm hk hlt hline
  exact step_detecting_of_wait hwf ha hm hk hlt hline

/-- Settles O18: after ten samples the step is the classification, by two windows that do not meet. -/
theorem detectClassifiesTheMinimum : Obligations.DetectClassifiesTheMinimum := by
  unfold Obligations.DetectClassifiesTheMinimum
  intro s m hwf ha hm hk
  refine ⟨classify (.us m), step_detecting_of_done hwf ha hm hk, fun hslow => ?_, fun hfast => ?_, fun hslow hfast => ?_⟩
  · rw [classify_us, if_pos hslow]
  · rw [classify_us, if_neg (by omega), if_pos hfast]
  · rw [classify_us, if_neg hslow, if_neg hfast]

/-- Settles O51, by induction on the turns of the line reader. -/
theorem detectWithWaitsClassifiesTheSmallest : Obligations.DetectWithWaitsClassifiesTheSmallest := by
  unfold Obligations.DetectWithWaitsClassifiesTheSmallest
  intro s turns later cs m d hwf hidle hcommands hcount hlast hline hmem hle
  rw [← classify_us]
  exact run_detect hwf hidle hcommands hcount (by simp [hlast]) hline hmem hle

/-- Settles O19: ten pulses are ten turns of the line reader without a wait. -/
theorem detectOfTenPulsesClassifiesTheSmallest : Obligations.DetectOfTenPulsesClassifiesTheSmallest := by
  unfold Obligations.DetectOfTenPulsesClassifiesTheSmallest
  intro s widths later cs m hwf hidle hcommands hten hline hmem hle
  have hcount : (widths.map some).countP Option.isSome = 10 := by simp [List.countP_map, Function.comp_def, hten]
  have hlast : ∀ turn ∈ (widths.map some).getLast?, turn.isSome = true := by
    intro turn hturn
    obtain ⟨d, -, rfl⟩ := List.mem_map.mp (List.mem_of_getLast? hturn)
    rfl
  have hrun := run_detect hwf hidle hcommands hcount hlast hline (by simpa using hmem) (by simpa using hle)
  rwa [List.length_map, hten, classify_us] at hrun

/-- Settles O20: every step is a wait that leaves DETECT as it was. -/
theorem detectOnASilentLineNeverEnds : Obligations.DetectOnASilentLineNeverEnds := by
  unfold Obligations.DetectOnASilentLineNeverEnds
  intro s m k hwf ha hm hk hlt hline n
  exact run_detecting_of_silent hwf ha hm hk hlt hline n

/-- Settles O21: no turn of DETECT and no form of the command writes the parser or takes a byte. -/
theorem detectLeavesParserAndSourceAlone : Obligations.DetectLeavesParserAndSourceAlone := by
  unfold Obligations.DetectLeavesParserAndSourceAlone
  constructor
  · intro s t ha hstep
    obtain ⟨hparser, hsource, -⟩ := step_detecting_frame ha hstep
    exact ⟨hparser, hsource⟩
  · intro s t i hi hexec
    simp only [List.mem_cons, List.not_mem_nil, or_false] at hi
    obtain rfl | rfl | rfl := hi <;>
      · obtain rfl := Host.Outcome.next.inj hexec
        exact ⟨⟨rfl, rfl, rfl, rfl⟩, rfl⟩

end Sys2Proof
end

