-- ==== Sys2Proof/Proofs/MachineFrame.lean ====
section
/-! What one step of the whole machine leaves alone, and the outcomes that commands end with (20_memory.md R53, R58,
30_encoding.md R81, 70_reset_and_hazards.md R238). -/

namespace Sys2Proof

namespace Machine

/-- RESET has one command word (R77). -/
theorem eq_resetWord_of_decodeCommand {w : CmdWord} (h : decodeCommand w = .instr .reset) : w = 0x0#4 := by
  revert w; decide

/-- A command leaves the configuration and the source alone, and the parser too unless it is RESET. -/
theorem exec_command_frame {i : Instr} {s t : State} (hi : i ∈ [Instr.reset, .poll, .detect, .detect1200, .detect9600])
    (hexec : exec i s = .next t) : t.cfg = s.cfg ∧ t.source = s.source ∧ (i ≠ .reset → s.SameParser t) := by
  obtain ⟨hreset, e⟩ | ⟨-, e⟩ | ⟨-, e⟩ | ⟨_, -, e⟩ := exec_command_cases hi s <;>
    obtain rfl := Host.Outcome.next.inj (e.symm.trans hexec)
  · exact ⟨rfl, rfl, fun hne => absurd hreset hne⟩
  · exact ⟨rfl, rfl, fun _ => ⟨rfl, rfl, rfl, rfl⟩⟩
  · exact ⟨rfl, rfl, fun _ => ⟨rfl, rfl, rfl, rfl⟩⟩
  · exact ⟨rfl, rfl, fun _ => ⟨rfl, rfl, rfl, rfl⟩⟩

/-- A step of an idle block takes no byte, leaves the configuration alone, and writes the parser only by RESET. -/
theorem step_idle_frame {s t : State} (hidle : s.activity = .idle) (h : step s = .next t) :
    t.cfg = s.cfg ∧ t.source = s.source ++ s.arrivals.head [] ∧
      (s.commands.head none ≠ some 0x0#4 → s.SameParser t) := by
  have answer := step_answer s
  generalize step s = o at answer h
  cases answer with
  | illFormed _ => cases h
  | waits _ _ =>
    obtain rfl := Host.Outcome.next.inj h
    exact ⟨rfl, rfl, fun _ => ⟨rfl, rfl, rfl, rfl⟩⟩
  | command w i _ hc hd hi =>
    obtain ⟨hcfg, hsource, hparser⟩ := exec_command_frame hi h
    refine ⟨hcfg, hsource, fun hne => hparser ?_⟩
    rintro rfl
    exact hne (hc.trans (congrArg some (eq_resetWord_of_decodeCommand hd)))
  | reserved _ _ _ _ => cases h
  | drained hpoll _ => simp [hidle] at hpoll
  | byte _ _ hpoll _ => simp [hidle] at hpoll
  | detects hdetect => simp [hidle] at hdetect

/-- A step of a polling block takes no command, leaves the configuration alone, and takes at most the head byte. -/
theorem step_polling_frame {s t : State} (hpoll : s.activity = .polling) (h : step s = .next t) :
    t.cfg = s.cfg ∧ t.commands = s.commands ∧
      (t.source = s.source ++ s.arrivals.head [] ∨ ∃ r, r :: t.source = s.source ++ s.arrivals.head []) := by
  obtain rfl | ⟨r, q, hq, hexec⟩ := step_polling_cases hpoll h
  · exact ⟨rfl, rfl, .inl rfl⟩
  · obtain ⟨-, -, hcfg, hcommands, hsource, -, -⟩ := exec_byte_frame (isByte_decodeByte r) hexec
    refine ⟨hcfg, hcommands, .inr ⟨r, ?_⟩⟩
    rw [hq, hsource]

end Machine

open Machine

/-- Settles O42: the four ways a POLL step ends, the classification of DETECT, and the one answer of each other command. -/
theorem outcomesOfEachCommand : Obligations.OutcomesOfEachCommand := by
  unfold Obligations.OutcomesOfEachCommand
  refine ⟨?_, ?_, ?_, ?_⟩
  · intro s t hinv hpoll hstep hidle
    cases step_polling_end hinv hpoll hstep with
    | goesOn _ hstill _ => simp [hidle] at hstill
    | drained => exact .inl rfl
    | produced _ _ _ => exact .inr (.inl ⟨_, _, rfl⟩)
    | errored _ hdetect _ => exact .inr (.inr ⟨_, rfl, hdetect⟩)
  · intro s t ha hstep hidle
    obtain ⟨-, -, -, -, hruns | ⟨m, hout⟩⟩ := step_detecting_frame ha hstep
    · simp [hidle] at hruns
    · obtain ⟨r, hrate⟩ | hfailed := classify_cases m
      · exact .inl ⟨r, hout.trans (congrArg some hrate)⟩
      · exact .inr (hout.trans (congrArg some hfailed))
  · rintro s t h
    obtain rfl := Host.Outcome.next.inj h
    rfl
  · rintro s t (h | h) <;> obtain rfl := Host.Outcome.next.inj h
    · exact ⟨.b1200, rfl⟩
    · exact ⟨.b9600, rfl⟩

/-- Settles O43: the transport appends, and only a byte step takes the head away. -/
theorem sourceIsAFifo : Obligations.SourceIsAFifo := by
  unfold Obligations.SourceIsAFifo
  intro s t hstep
  cases ha : s.activity with
  | idle =>
    obtain ⟨-, hsource, -⟩ := step_idle_frame ha hstep
    exact .inl hsource
  | polling =>
    obtain ⟨-, -, hsource⟩ := step_polling_frame ha hstep
    exact hsource.imp_right fun htaken => ⟨rfl, htaken⟩
  | detecting =>
    obtain ⟨-, hsource, -⟩ := step_detecting_frame ha hstep
    exact .inl hsource

/-- Settles O44: neither a step of POLL nor one of DETECT takes a command. -/
theorem commandsAreTakenOnlyWhenIdle : Obligations.CommandsAreTakenOnlyWhenIdle := by
  unfold Obligations.CommandsAreTakenOnlyWhenIdle
  intro s t hstep hbusy
  cases ha : s.activity with
  | idle => exact absurd ha hbusy
  | polling =>
    obtain ⟨-, hcommands, -⟩ := step_polling_frame ha hstep
    exact hcommands
  | detecting =>
    obtain ⟨-, -, hcommands, -⟩ := step_detecting_frame ha hstep
    exact hcommands

/-- Settles O45: outside POLL the only writer of the parser is the command word of RESET. -/
theorem parserWrittenOnlyByPollAndReset : Obligations.ParserWrittenOnlyByPollAndReset := by
  unfold Obligations.ParserWrittenOnlyByPollAndReset
  intro s t hstep
  cases ha : s.activity with
  | idle =>
    obtain ⟨hcfg, -, hparser⟩ := step_idle_frame ha hstep
    exact ⟨hcfg, fun _ hreset => hparser fun hc => hreset ⟨rfl, hc⟩⟩
  | polling =>
    obtain ⟨hcfg, -, -⟩ := step_polling_frame ha hstep
    exact ⟨hcfg, fun hne => absurd rfl hne⟩
  | detecting =>
    obtain ⟨hparser, -, -, hcfg, -⟩ := step_detecting_frame ha hstep
    exact ⟨hcfg, fun _ _ => hparser⟩

end Sys2Proof
end

