-- ==== Sys2Proof/Proofs/Drains.lean ====
section
/-! Runs of a POLL over the bytes of its source: one that is fed forever, and one that is cut short and goes on later
(41_poll_and_reset.md R121 to R128, 70_reset_and_hazards.md R240). -/

namespace Sys2Proof

namespace Machine

/-! ### A POLL fed forever -/

/-- Raw 0x80 is a valid byte of the class OTHER, which `AFS` ignores (R145). -/
theorem exec_rawZero_afs {s : State} (h : s.parser = .afs) : exec (decodeByte 0x80#8) s = .next s := by
  have hclass : decodeByte 0x80#8 = .byteOther 1#1 0x00#7 := by decide
  rw [hclass]
  exact exec_byteOther_afs _ _ h

/-- The byte that arrives is the one that is taken. -/
theorem withSource_deliver_of_fed {s : State} {r : Raw} (hq : s.source = []) (hfeed : s.arrivals = ⟨[], [[r]]⟩) :
    s.deliver.withSource [] = s := by
  cases s
  subst hq hfeed
  rfl

/-- When one ignored byte arrives before every step, a step leads back to the state it starts from. -/
theorem step_fed_eq_self {s : State} (hwf : s.cfg.wf) (hpoll : s.activity = .polling) (hafs : s.parser = .afs)
    (hq : s.source = []) (hfeed : s.arrivals = ⟨[], [[0x80#8]]⟩) : step s = .next s := by
  have hhead : s.source ++ s.arrivals.head [] = 0x80#8 :: [] := by simp [hq, hfeed]
  have hstep := step_polling_of_cons hwf hpoll hhead
  rw [withSource_deliver_of_fed hq hfeed] at hstep
  exact hstep.trans (exec_rawZero_afs hafs)

theorem run_of_step_eq_self {s : State} (h : step s = .next s) (n : Nat) : run n s = .next s := by
  induction n with
  | zero => exact run_zero s
  | succ n ih => exact (run_succ_of_next h n).trans ih

/-! ### A POLL cut short -/

/-- A block that polls `q` and nothing else: no command, byte or outcome stands beside it. -/
structure State.Drains (s : State) (q : List Raw) : Prop where
  config : s.cfg.wf
  polls : s.activity = .polling
  outcome : s.outcome = none
  commands : s.commands = .silent
  arrivals : s.arrivals = .silent
  source : s.source = q

theorem State.Drains.withSource {s : State} {q : List Raw} (h : s.Drains q) (q' : List Raw) :
    (s.withSource q').Drains q' :=
  ⟨h.config, h.polls, h.outcome, h.commands, h.arrivals, rfl⟩

/-- One byte step, without the transport. -/
theorem State.Drains.step_eq {s : State} {r : Raw} {q : List Raw} (h : s.Drains (r :: q)) :
    step s = exec (decodeByte r) (s.withSource q) :=
  step_polling_of_silent h.config h.polls h.arrivals h.source

theorem State.Drains.step_nil {s : State} (h : s.Drains []) : step s = .next (s.finished .empty) :=
  step_polling_of_silent_nil h.config h.polls h.arrivals h.source

/-- A byte step that does not end POLL goes on draining the rest. -/
theorem State.Drains.of_step {s u : State} {r : Raw} {q : List Raw} (h : s.Drains (r :: q)) (hstep : step s = .next u)
    (hpoll : u.activity = .polling) : u.Drains q := by
  have hexec := h.step_eq.symm.trans hstep
  obtain ⟨-, -, hcfg, hcommands, hsource, harrivals, -⟩ := exec_byte_frame (isByte_decodeByte r) hexec
  obtain ⟨-, hout⟩ | ⟨tag, data, -, -, rfl⟩ | ⟨k, -, -, rfl⟩ := exec_byte_ends (isByte_decodeByte r) hexec
  · exact ⟨hcfg ▸ h.config, hpoll, hout.trans h.outcome, hcommands.trans h.commands, harrivals.trans h.arrivals, hsource⟩
  · simp at hpoll
  · simp at hpoll

/-- An idle block to which the host gives no more commands stays idle. -/
theorem run_idle_of_silent {n : Nat} {s t : State} (hidle : s.activity = .idle) (hsilent : s.commands = .silent)
    (hrun : run n s = .next t) : t.activity = .idle := by
  induction n generalizing s with
  | zero => rw [run_zero] at hrun; cases hrun; exact hidle
  | succ n ih =>
    obtain ⟨u, hstep, hrun⟩ := step_of_run_succ hrun
    have hwaits := step_idle_of_no_command (wf_of_step_next hstep) hidle (by simp [hsilent])
    obtain rfl := Host.Outcome.next.inj (hwaits.symm.trans hstep)
    exact ih (s := { s.deliver with commands := s.commands.rest }) hidle (by simp [hsilent]) hrun

/-- A POLL that is still running at the end of a run was running after its first step. -/
theorem State.Drains.step_of_run {n : Nat} {s t : State} {r : Raw} {q : List Raw} (h : s.Drains (r :: q))
    (hrun : run (n + 1) s = .next t) (hpoll : t.activity = .polling) :
    ∃ u, step s = .next u ∧ u.Drains q ∧ run n u = .next t := by
  obtain ⟨u, hstep, hrun⟩ := step_of_run_succ hrun
  have hexec := h.step_eq.symm.trans hstep
  obtain ⟨-, -, -, hcommands, -⟩ := exec_byte_frame (isByte_decodeByte r) hexec
  have hnotIdle : u.activity ≠ .idle := fun hidle => by
    simp [run_idle_of_silent hidle (hcommands.trans h.commands) hrun] at hpoll
  refine ⟨u, hstep, h.of_step hstep ?_, hrun⟩
  obtain ⟨ha, -⟩ | ⟨_, _, -, -, rfl⟩ | ⟨_, -, -, rfl⟩ := exec_byte_ends (isByte_decodeByte r) hexec
  · exact ha.trans h.polls
  · exact absurd rfl hnotIdle
  · exact absurd rfl hnotIdle

/-- A POLL that goes on to the end of its bytes does the same with more bytes behind them, which stay in the source. -/
theorem State.Drains.run {s t : State} {first : List Raw} (h : s.Drains first) (hrun : run first.length s = .next t)
    (hpoll : t.activity = .polling) (later : List Raw) :
    t.Drains [] ∧ Machine.run first.length (s.withSource (first ++ later)) = .next (t.withSource later) := by
  induction first generalizing s with
  | nil =>
    rw [List.length_nil, run_zero] at hrun
    cases hrun
    exact ⟨h, rfl⟩
  | cons r first ih =>
    obtain ⟨u, hstep, hu, hrun⟩ := h.step_of_run hrun hpoll
    obtain ⟨ht, hlater⟩ := ih hu hrun
    have hexec := h.step_eq.symm.trans hstep
    have hstep' : step (s.withSource (r :: first ++ later)) = .next (u.withSource (first ++ later)) := by
      have hsame := exec_byte_withSource (isByte_decodeByte r) (first ++ later) (s.withSource first)
      rw [hexec] at hsame
      exact (h.withSource (r :: (first ++ later))).step_eq.trans hsame
    exact ⟨ht, (run_succ_of_next hstep' _).trans hlater⟩

/-- An idle block takes the POLL command and does nothing else in that step. -/
theorem step_begins_poll {s : State} (hwf : s.cfg.wf) (hidle : s.activity = .idle)
    (hc : s.commands.head none = some 0x1#4) (hsilent : s.arrivals = .silent) :
    step s = .next { s with activity := .polling, commands := s.commands.rest, outcome := none } := by
  have hd : decodeCommand 0x1#4 = .instr .poll := by decide
  rw [step_idle_of_command hwf hidle hc hd, exec_poll, State.deliver_of_silent hsilent]

/-- A later POLL, when nothing but the command and its bytes has come, begins in the state where the first one stopped
(R128). -/
theorem State.Drains.step_resumes {t : State} (h : t.Drains []) (later : List Raw) :
    step { t with activity := .idle, outcome := some .empty, source := later, commands := ⟨[some 0x1#4], []⟩ } =
      .next (t.withSource later) := by
  refine Eq.trans (step_begins_poll h.config rfl rfl h.arrivals) ?_
  obtain ⟨-, hpolls, hnone, hsilent, -, -⟩ := h
  cases t
  subst hpolls hnone hsilent
  rfl

end Machine

open Machine

/-- Settles O47: every step leads back to the state in which POLL began. -/
theorem pollFedForeverNeverEnds : Obligations.PollFedForeverNeverEnds := by
  unfold Obligations.PollFedForeverNeverEnds
  intro s hwf hpoll hafs hq hfeed n
  exact ⟨s, run_of_step_eq_self (step_fed_eq_self hwf hpoll hafs hq hfeed) n, hpoll⟩

/-- Settles O48: a byte step does not see the bytes behind it, so the rest may as well arrive later. -/
theorem partialDrainGoesOnLater : Obligations.PartialDrainGoesOnLater := by
  unfold Obligations.PartialDrainGoesOnLater
  intro s t first later hwf hpoll hout hcommands harrivals hq hrun hstill
  have hs : s.Drains first := ⟨hwf, hpoll, hout, hcommands, harrivals, hq⟩
  obtain ⟨ht, hlater⟩ := hs.run hrun hstill later
  exact ⟨run_then_step hrun ht.step_nil, hlater, ht.step_resumes later⟩

end Sys2Proof
end

