-- ==== Sys2Proof/Proofs/Datasets.lean ====
section
/-! A POLL over the bytes of a whole dataset: noise and STX in front, LF, the tag, the first splitter, the data bytes, and the
CR that produces it (30_encoding.md R85, 42_framer_bytes.md R140 to R148, 43_dataset_validation.md R170 to R178). -/

namespace Sys2Proof

namespace Machine

/-! ### Valid bytes in `PT` and `PD` -/

/-- TAB and SPACE as valid raw bytes (R146). -/
theorem exec_validRaw_splitter {v : Val} (hv : isSplitter v) (s : State) :
    exec (decodeByte (validRaw v)) s = splitterStep v s := by
  obtain rfl | rfl := hv
  · exact exec_eq_splitterStep (by decide) s
  · exact exec_eq_splitterStep (by decide) s

/-- What a polling block executes for each valid byte (R75); TAB and SPACE share the splitter step (R146). -/
theorem decodeByte_validRaw_cases (v : Val) :
    (v = Ascii.stx ∧ decodeByte (validRaw v) = .byteStx) ∨ (v = Ascii.etx ∧ decodeByte (validRaw v) = .byteEtx) ∨
    (v = Ascii.lf ∧ decodeByte (validRaw v) = .byteLf) ∨ (v = Ascii.cr ∧ decodeByte (validRaw v) = .byteCr) ∨
    (isSplitter v ∧ ∀ s, exec (decodeByte (validRaw v)) s = splitterStep v s) ∨
    ∃ p, decodeByte (validRaw v) = .byteOther p v := by
  by_cases hnamed : isNamed v
  · obtain rfl | rfl | rfl | rfl | hsplit := hnamed
    · exact .inl ⟨rfl, by decide⟩
    · exact .inr (.inl ⟨rfl, by decide⟩)
    · exact .inr (.inr (.inl ⟨rfl, by decide⟩))
    · exact .inr (.inr (.inr (.inl ⟨rfl, by decide⟩)))
    · exact .inr (.inr (.inr (.inr (.inl ⟨hsplit, exec_validRaw_splitter hsplit⟩))))
  · have hother := decodeByte_of_not_isNamed (not_parityBad_validRaw v) (by rwa [strip_validRaw])
    rw [strip_validRaw] at hother
    exact .inr (.inr (.inr (.inr (.inr ⟨_, hother⟩))))

section

variable {s : State} {v : Val}

/-- In `AFS` every valid byte but STX is ignored. -/
theorem exec_validRaw_afs (h : s.parser = .afs) (hv : v ≠ Ascii.stx) :
    exec (decodeByte (validRaw v)) s = .next s := by
  obtain ⟨hstx, -⟩ | ⟨-, e⟩ | ⟨-, e⟩ | ⟨-, e⟩ | ⟨-, e⟩ | ⟨p, e⟩ := decodeByte_validRaw_cases v
  · exact absurd hstx hv
  · rw [e]; exact exec_byteEtx_afs h
  · rw [e]; exact exec_byteLf_afs h
  · rw [e]; exact exec_byteCr_afs h
  · rw [e]; exact splitterStep_afs v h
  · rw [e]; exact exec_byteOther_afs p v h

/-- In `PT` every valid byte but a splitter is a tag byte. -/
theorem exec_validRaw_pt (h : s.parser = .pt) (hv : ¬ isSplitter v) :
    exec (decodeByte (validRaw v)) s = tagAppend v s := by
  obtain ⟨rfl, e⟩ | ⟨rfl, e⟩ | ⟨rfl, e⟩ | ⟨rfl, e⟩ | ⟨hsplit, -⟩ | ⟨p, e⟩ := decodeByte_validRaw_cases v
  · rw [e]; exact exec_byteStx_pt h
  · rw [e]; exact exec_byteEtx_pt h
  · rw [e]; exact exec_byteLf_pt h
  · rw [e]; exact exec_byteCr_pt h
  · exact absurd hsplit hv
  · rw [e]; exact exec_byteOther_pt p v h

/-- In `PD` every valid byte but CR is a data byte. -/
theorem exec_validRaw_pd (h : s.parser = .pd) (hv : v ≠ Ascii.cr) :
    exec (decodeByte (validRaw v)) s = dataAppend v s := by
  obtain ⟨rfl, e⟩ | ⟨rfl, e⟩ | ⟨rfl, e⟩ | ⟨hcr, -⟩ | ⟨-, e⟩ | ⟨p, e⟩ := decodeByte_validRaw_cases v
  · rw [e]; exact exec_byteStx_pd h
  · rw [e]; exact exec_byteEtx_pd h
  · rw [e]; exact exec_byteLf_pd h
  · exact absurd hcr hv
  · rw [e]; exact splitterStep_pd v h
  · rw [e]; exact exec_byteOther_pd p v h

end

/-! ### A POLL in the middle of its bytes -/

/-- A POLL in parser state `p` with the bytes `q` in its source and none to come. -/
structure State.Polls (s : State) (p : ParserState) (q : List Raw) : Prop where
  config : s.cfg.wf
  polls : s.activity = .polling
  arrivals : s.arrivals = .silent
  cells : s.buf.length = s.cfg.bufCap
  parser : s.parser = p
  source : s.source = q

/-- The same with a buffer that holds `vs`. -/
structure State.Reads (s : State) (p : ParserState) (vs : List Val) (q : List Raw) : Prop extends s.Polls p q where
  holds : s.Holds vs

section

variable {s : State} {p : ParserState} {vs : List Val} {q : List Raw} {v : Val}

theorem State.Polls.withSource (h : s.Polls p q) (q' : List Raw) : (s.withSource q').Polls p q' :=
  ⟨h.config, h.polls, h.arrivals, h.cells, h.parser, rfl⟩

theorem State.Polls.step_eq {r : Raw} (h : s.Polls p (r :: q)) : step s = exec (decodeByte r) (s.withSource q) :=
  step_polling_of_silent h.config h.polls h.arrivals h.source

/-- Noise in front of a frame (R145). -/
theorem State.Polls.step_noise {r : Raw} (h : s.Polls .afs (r :: q)) (hodd : popcount r % 2 = 1) (hr : r ≠ 0x02#8) :
    step s = .next (s.withSource q) := by
  have hvalid : r = validRaw (strip r) := eq_validRaw_strip (by simp [parityBad, hodd])
  have hstx : strip r ≠ Ascii.stx := fun hv => hr (by rw [hvalid, hv]; rfl)
  have hexec := exec_validRaw_afs (s := s.withSource q) h.parser hstx
  rw [← hvalid] at hexec
  exact h.step_eq.trans hexec

/-- STX opens a frame (R141). -/
theorem State.Polls.step_stx (h : s.Polls .afs (validRaw Ascii.stx :: q)) :
    ∃ t, step s = .next t ∧ t.Polls .adfe q ∧ t.cfg = s.cfg := by
  have hexec := exec_byteStx_afs (s := s.withSource q) h.parser
  exact ⟨_, h.step_eq.trans hexec, ⟨h.config, h.polls, h.arrivals, h.cells, rfl, rfl⟩, rfl⟩

/-- LF starts a dataset with an empty buffer, whatever the one before it left there (R143). -/
theorem State.Polls.step_lf (h : s.Polls .adfe (validRaw Ascii.lf :: q)) :
    ∃ t, step s = .next t ∧ t.Reads .pt [] q ∧ t.cfg = s.cfg := by
  have hexec := exec_byteLf_adfe (s := s.withSource q) h.parser
  exact ⟨_, h.step_eq.trans hexec, ⟨⟨h.config, h.polls, h.arrivals, h.cells, rfl, rfl⟩, rfl, rfl⟩, rfl⟩

/-- The state after a byte is stored. -/
theorem State.Reads.pushed {r : Raw} (h : s.Reads p vs (r :: q)) (hroom : vs.length < s.cfg.bufCap) (v : Val) :
    ((s.withSource q).pushed v).Reads p (vs ++ [v]) q := by
  have hlen : s.len < s.buf.length := by rw [h.holds.1, h.cells]; exact hroom
  have hcells : (s.buf.set s.len (some v)).length = s.cfg.bufCap := by rw [List.length_set, h.cells]
  exact ⟨⟨h.config, h.polls, h.arrivals, hcells, h.parser, rfl⟩, State.Holds.pushed (s := s.withSource q) h.holds hlen v⟩

/-- A tag byte (R147). -/
theorem State.Reads.step_tag (h : s.Reads .pt vs (validRaw v :: q)) (hv : ¬ isSplitter v) (hcap : vs.length < 8) :
    ∃ t, step s = .next t ∧ t.Reads .pt (vs ++ [v]) q ∧ t.cfg = s.cfg := by
  have hwf : 8 + 1 ≤ s.cfg.bufCap := h.config
  have hlen : s.len < 8 := by rw [h.holds.1]; exact hcap
  refine ⟨_, ?_, h.pushed (by omega) v, rfl⟩
  have hexec := exec_validRaw_pt (s := s.withSource q) h.parser hv
  exact h.step_eq.trans (hexec.trans (tagAppend_of_len_lt v h.config hlen))

/-- The first splitter (R146). -/
theorem State.Reads.step_splitter (h : s.Reads .pt vs (validRaw v :: q)) (hv : isSplitter v) (hcap : vs.length ≤ 8) :
    ∃ t, step s = .next t ∧ t.Reads .pd (vs ++ [v]) q ∧ t.split = v ∧ t.cfg = s.cfg := by
  have hwf : 8 + 1 ≤ s.cfg.bufCap := h.config
  have hlen : s.len < s.cfg.bufCap := by have := h.holds.1; omega
  obtain ⟨⟨hconfig, hpolls, harrivals, hcells, -, hsource⟩, hholds⟩ := h.pushed (by omega) v
  refine ⟨{ (s.withSource q).pushed v with split := v, parser := .pd }, ?_,
    ⟨⟨hconfig, hpolls, harrivals, hcells, rfl, hsource⟩, hholds⟩, rfl, rfl⟩
  rw [h.step_eq, exec_validRaw_splitter hv]
  exact splitterStep_pt v h.parser hlen

/-- A data byte (R148). -/
theorem State.Reads.step_data (h : s.Reads .pd vs (validRaw v :: q)) (hv : v ≠ Ascii.cr)
    (hroom : vs.length < s.cfg.bufCap) :
    ∃ t, step s = .next t ∧ t.Reads .pd (vs ++ [v]) q ∧ t.split = s.split ∧ t.cfg = s.cfg := by
  have hlen : s.len < s.cfg.bufCap := by rw [h.holds.1]; exact hroom
  refine ⟨_, ?_, h.pushed hroom v, rfl, rfl⟩
  have hexec := exec_validRaw_pd (s := s.withSource q) h.parser hv
  exact h.step_eq.trans (hexec.trans (dataAppend_of_len_lt v hlen))

/-! ### Runs over whole fields -/

/-- Any valid bytes but STX in front of a frame. -/
theorem State.Polls.run_noise {noise : List Raw} (h : s.Polls .afs (noise ++ q))
    (hnoise : ∀ r ∈ noise, popcount r % 2 = 1 ∧ r ≠ 0x02#8) : run noise.length s = .next (s.withSource q) := by
  induction noise generalizing s with
  | nil =>
    have hsource : s.withSource q = s := by
      obtain rfl : s.source = q := h.source
      rfl
    rw [hsource]
    exact run_zero s
  | cons r noise ih =>
    obtain ⟨hodd, hr⟩ := hnoise r List.mem_cons_self
    exact (run_succ_of_next (h.step_noise hodd hr) _).trans
      (ih (h.withSource (noise ++ q)) fun r' hr' => hnoise r' (List.mem_cons_of_mem _ hr'))

/-- The tag. -/
theorem State.Reads.run_tag {tag : List Val} (h : s.Reads .pt vs (rawStream tag ++ q)) (htag : ∀ v ∈ tag, ¬ isSplitter v)
    (hcap : vs.length + tag.length ≤ 8) :
    ∃ t, run tag.length s = .next t ∧ t.Reads .pt (vs ++ tag) q ∧ t.cfg = s.cfg := by
  induction tag generalizing s vs with
  | nil => exact ⟨s, run_zero s, by simpa [rawStream] using h, rfl⟩
  | cons v tag ih =>
    rw [List.length_cons] at hcap
    obtain ⟨u, hstep, hu, hcfg⟩ := h.step_tag (htag v List.mem_cons_self) (by omega)
    obtain ⟨t, hrun, ht, hcfg'⟩ := ih hu (fun w hw => htag w (List.mem_cons_of_mem _ hw)) (by simp; omega)
    exact ⟨t, (run_succ_of_next hstep _).trans hrun, by simpa using ht, hcfg'.trans hcfg⟩

/-- The bytes behind the first splitter, up to the CR. -/
theorem State.Reads.run_data {body : List Val} (h : s.Reads .pd vs (rawStream body ++ q)) (hbody : ∀ v ∈ body, v ≠ Ascii.cr)
    (hroom : vs.length + body.length ≤ s.cfg.bufCap) :
    ∃ t, run body.length s = .next t ∧ t.Reads .pd (vs ++ body) q ∧ t.split = s.split := by
  induction body generalizing s vs with
  | nil => exact ⟨s, run_zero s, by simpa [rawStream] using h, rfl⟩
  | cons v body ih =>
    rw [List.length_cons] at hroom
    obtain ⟨u, hstep, hu, hsplit, hcfg⟩ := h.step_data (hbody v List.mem_cons_self) (by omega)
    obtain ⟨t, hrun, ht, hsplit'⟩ := ih hu (fun w hw => hbody w (List.mem_cons_of_mem _ hw)) (by simp [hcfg]; omega)
    exact ⟨t, (run_succ_of_next hstep _).trans hrun, by simpa using ht, hsplit'.trans hsplit⟩

end

/-! ### The checksum byte -/

theorem checksum_lt (vs : List Val) : checksum vs < 2 ^ 7 := by
  unfold checksum; omega

/-- The checksum byte is the checksum of the bytes Validate covers (R172 to R174). -/
theorem toNat_checksumByte (split : Val) (fields : List Val) :
    (checksumByte split fields).toNat = checksum (covered split fields) := by
  have hspan : fields.take (checksumSpan split (fields.length + 1)) = covered split fields := by
    unfold checksumSpan covered
    split
    · rw [List.dropLast_eq_take]; rfl
    · exact List.take_length
  rw [checksumByte, hspan, BitVec.toNat_ofNat, Nat.mod_eq_of_lt (checksum_lt _)]

/-- A checksum byte is printable, so CR ends the dataset behind it (R174). -/
theorem checksumByte_ne_cr (split : Val) (fields : List Val) : checksumByte split fields ≠ Ascii.cr := by
  intro h
  have hnat := toNat_checksumByte split fields
  rw [h, checksum] at hnat
  have : (Ascii.cr).toNat = 13 := rfl
  omega

/-- CR behind the right checksum byte is the extraction of the fields. -/
theorem exec_byteCr_of_checksumByte {s : State} {fields : List Val} (hpd : s.parser = .pd) (hsplit : isSplitter s.split)
    (hholds : s.Holds (fields ++ [checksumByte s.split fields])) : exec .byteCr s = extract fields s := by
  rw [exec_byteCr_pd hpd, validate, if_pos hsplit, checkAndExtract_of_holds hholds, if_pos (toNat_checksumByte _ _).symm]

/-! ### Whole datasets -/

/-- The states in which a POLL has produced a dataset and left these bytes in the source (R124, R178). -/
abbrev State.HasProduced (tag data : List Val) (rest : List Raw) (t : State) : Prop :=
  t.activity = .idle ∧ t.outcome = some (.produced tag data) ∧ t.parser = .adfe ∧ t.source = rest

/-- What makes a tag, a splitter and a body a dataset that POLL decodes to `tag` and `data` in a buffer of `cap` cells: the
tag ends at the splitter, no CR ends the body early, and the extraction cuts the two fields out. -/
structure Decodable (cap : Nat) (sep : Val) (tag body data : List Val) : Prop where
  splitter : isSplitter sep
  tagLength : tag.length ≤ 8
  tagBytes : ∀ v ∈ tag, ¬ isSplitter v
  bodyBytes : ∀ v ∈ body, v ≠ Ascii.cr
  room : tag.length + body.length + 2 ≤ cap
  fields : ∀ s : State, s.split = sep → extract (tag ++ sep :: body) s = produce tag data s

section

variable {sep : Val} {tag timestamp body data : List Val} {rest : List Raw} {cap : Nat}

theorem cr_not_isSplitter : ¬ isSplitter Ascii.cr := by decide

theorem not_mem_of_not_isSplitter {vs : List Val} (hsep : isSplitter sep) (hvs : ∀ v ∈ vs, ¬ isSplitter v) : sep ∉ vs :=
  fun hmem => hvs sep hmem hsep

/-- A 2-field dataset (R176). -/
theorem decodable_two_fields (hsep : isSplitter sep) (hlength : tag.length ≤ 8) (htag : ∀ v ∈ tag, ¬ isSplitter v)
    (hdata : ∀ v ∈ data, v ≠ sep ∧ v ≠ Ascii.cr) (hroom : tag.length + data.length + 3 ≤ cap) :
    Decodable cap sep tag (data ++ [sep]) data := by
  have hsepcr : sep ≠ Ascii.cr := fun h => cr_not_isSplitter (h ▸ hsep)
  refine ⟨hsep, hlength, htag, ?_, by simp; omega, ?_⟩
  · intro v hv
    obtain hv | hv := List.mem_append.mp hv
    · exact (hdata v hv).2
    · rwa [List.mem_singleton.mp hv]
  · rintro s rfl
    exact extract_two_fields (not_mem_of_not_isSplitter hsep htag) (fun hmem => (hdata _ hmem).1 rfl) List.not_mem_nil

/-- A 3-field dataset (R176). -/
theorem decodable_three_fields (hsep : isSplitter sep) (hlength : tag.length ≤ 8) (htag : ∀ v ∈ tag, ¬ isSplitter v)
    (htimestamp : ∀ v ∈ timestamp, v ≠ sep ∧ v ≠ Ascii.cr) (hdata : ∀ v ∈ data, v ≠ sep ∧ v ≠ Ascii.cr)
    (hroom : tag.length + timestamp.length + data.length + 4 ≤ cap) :
    Decodable cap sep tag (timestamp ++ sep :: (data ++ [sep])) data := by
  have hsepcr : sep ≠ Ascii.cr := fun h => cr_not_isSplitter (h ▸ hsep)
  refine ⟨hsep, hlength, htag, ?_, by simp; omega, ?_⟩
  · intro v hv
    simp only [List.mem_append, List.mem_cons, List.not_mem_nil, or_false] at hv
    obtain hv | rfl | hv | rfl := hv
    · exact (htimestamp v hv).2
    · exact hsepcr
    · exact (hdata v hv).2
    · exact hsepcr
  · rintro s rfl
    exact extract_three_fields (not_mem_of_not_isSplitter hsep htag) (fun hmem => (htimestamp _ hmem).1 rfl)
      (fun hmem => (hdata _ hmem).1 rfl) List.not_mem_nil

variable {s : State}

/-- CR behind the checksum byte ends POLL with the dataset (R178). -/
theorem State.Reads.step_cr (hd : Decodable cap sep tag body data)
    (h : s.Reads .pd (tag ++ sep :: body ++ [checksumByte sep (tag ++ sep :: body)]) (validRaw Ascii.cr :: rest))
    (hsplit : s.split = sep) : ∃ t, step s = .next t ∧ t.HasProduced tag data rest := by
  subst hsplit
  have hclass : decodeByte (validRaw Ascii.cr) = .byteCr := by decide
  have hexec := exec_byteCr_of_checksumByte (s := s.withSource rest) h.parser hd.splitter h.holds
  have hstep := h.step_eq
  rw [hclass] at hstep
  exact ⟨_, hstep.trans (hexec.trans (hd.fields (s.withSource rest) rfl)), rfl, rfl, rfl, rfl⟩

/-- The bytes of a dataset in the order POLL reads them (R85). -/
theorem rawStream_dataset (sep : Val) (tag body : List Val) (rest : List Raw) :
    rawStream (dataset sep (tag ++ sep :: body)) ++ rest =
      validRaw Ascii.lf :: (rawStream tag ++ validRaw sep ::
        (rawStream (body ++ [checksumByte sep (tag ++ sep :: body)]) ++ validRaw Ascii.cr :: rest)) := by
  simp [dataset, rawStream]

/-- Between two datasets, POLL reads a dataset, one byte a step. -/
theorem State.Polls.run_dataset (hd : Decodable s.cfg.bufCap sep tag body data)
    (h : s.Polls .adfe (rawStream (dataset sep (tag ++ sep :: body)) ++ rest)) :
    ∃ t, run (tag.length + body.length + 4) s = .next t ∧ t.HasProduced tag data rest := by
  have hlast : ∀ v ∈ body ++ [checksumByte sep (tag ++ sep :: body)], v ≠ Ascii.cr := by
    simpa [or_imp, forall_and] using And.intro hd.bodyBytes (checksumByte_ne_cr sep (tag ++ sep :: body))
  have hroom := hd.room
  rw [rawStream_dataset] at h
  obtain ⟨opened, hlf, hopened, hcfgOpened⟩ := h.step_lf
  obtain ⟨tagged, htag, htagged, hcfgTagged⟩ := hopened.run_tag hd.tagBytes (by simpa using hd.tagLength)
  obtain ⟨split, hsep, hsplit, hactive, hcfgSplit⟩ := htagged.step_splitter hd.splitter (by simpa using hd.tagLength)
  obtain ⟨filled, hbody, hfilled, hkept⟩ :=
    hsplit.run_data hlast (by simp [hcfgSplit, hcfgTagged, hcfgOpened]; omega)
  obtain ⟨t, hcr, hend⟩ := State.Reads.step_cr (s := filled) hd (by simpa using hfilled) (hkept.trans hactive)
  refine ⟨t, ?_, hend⟩
  have hcount : tag.length + body.length + 4 =
      1 + (tag.length + (1 + ((body ++ [checksumByte sep (tag ++ sep :: body)]).length + 1))) := by simp; omega
  rw [hcount, run_add (run_one_of_next hlf), run_add htag, run_add (run_one_of_next hsep)]
  exact run_then_step hbody hcr

/-- Outside a frame, POLL ignores noise up to STX and then reads a dataset. -/
theorem State.Polls.run_frame {noise : List Raw} (hd : Decodable s.cfg.bufCap sep tag body data)
    (hnoise : ∀ r ∈ noise, popcount r % 2 = 1 ∧ r ≠ 0x02#8)
    (h : s.Polls .afs (noise ++ rawStream (Ascii.stx :: dataset sep (tag ++ sep :: body)) ++ rest)) :
    ∃ t, run (noise.length + (1 + (tag.length + body.length + 4))) s = .next t ∧ t.HasProduced tag data rest := by
  rw [List.append_assoc] at h
  have hquiet := h.run_noise hnoise
  obtain ⟨opened, hstx, hopened, hcfg⟩ := (h.withSource (rawStream (Ascii.stx :: _) ++ rest)).step_stx
  obtain ⟨t, hrun, hend⟩ := hopened.run_dataset (hcfg ▸ hd)
  exact ⟨t, by rw [run_add hquiet, run_add (run_one_of_next hstx), hrun], hend⟩

/-- A POLL in a state that meets the invariant. -/
theorem State.Inv.polls (h : s.Inv) (hpoll : s.activity = .polling) (hsilent : s.arrivals = .silent) :
    s.Polls s.parser s.source :=
  ⟨h.config, hpoll, hsilent, h.buffer.1, rfl, rfl⟩

end

end Machine

open Machine

/-- Settles O52: from `ADFE` the dataset's bytes are read one by one, and the extraction finds two fields. -/
theorem pollDecodesTheNextDataset : Obligations.PollDecodesTheNextDataset := by
  unfold Obligations.PollDecodesTheNextDataset
  intro s rest tag data sep hinv hpoll hadfe hsilent hsep hlength htag hdata hroom hq
  have hd := decodable_two_fields hsep hlength (fun v hv => not_or.mpr (htag v hv)) hdata hroom
  have h := hinv.polls hpoll hsilent
  rw [hadfe, hq] at h
  have hcount : tag.length + data.length + 5 =
      tag.length + (data ++ [sep]).length + 4 := by simp; omega
  rw [hcount]
  exact h.run_dataset hd

/-- Settles O53: the same with a timestamp, which the extraction leaves out. -/
theorem pollDecodesTheNextThreeFieldDataset : Obligations.PollDecodesTheNextThreeFieldDataset := by
  unfold Obligations.PollDecodesTheNextThreeFieldDataset
  intro s rest tag timestamp data sep hinv hpoll hadfe hsilent hsep hlength htag htimestamp hdata hroom hq
  have hd := decodable_three_fields hsep hlength (fun v hv => not_or.mpr (htag v hv)) htimestamp hdata hroom
  have h := hinv.polls hpoll hsilent
  rw [hadfe, hq] at h
  have hcount : tag.length + timestamp.length + data.length + 6 =
      tag.length + (timestamp ++ sep :: (data ++ [sep])).length + 4 := by simp; omega
  rw [hcount]
  exact h.run_dataset hd

/-- Settles O49: noise and STX lead to `ADFE`, from where the dataset is read. -/
theorem pollDecodesAWellFormedDataset : Obligations.PollDecodesAWellFormedDataset := by
  unfold Obligations.PollDecodesAWellFormedDataset
  intro s noise rest tag data sep hinv hpoll hafs hsilent hnoise hsep hlength htag hdata hroom hq
  have hd := decodable_two_fields hsep hlength (fun v hv => not_or.mpr (htag v hv)) hdata hroom
  have h := hinv.polls hpoll hsilent
  rw [hafs, hq] at h
  have hcount : noise.length + tag.length + data.length + 6 =
      noise.length + (1 + (tag.length + (data ++ [sep]).length + 4)) := by simp; omega
  rw [hcount]
  exact h.run_frame hd hnoise

/-- Settles O50: the same with a timestamp, which the extraction leaves out. -/
theorem pollDecodesAThreeFieldDataset : Obligations.PollDecodesAThreeFieldDataset := by
  unfold Obligations.PollDecodesAThreeFieldDataset
  intro s noise rest tag timestamp data sep hinv hpoll hafs hsilent hnoise hsep hlength htag htimestamp hdata hroom hq
  have hd := decodable_three_fields hsep hlength (fun v hv => not_or.mpr (htag v hv)) htimestamp hdata hroom
  have h := hinv.polls hpoll hsilent
  rw [hafs, hq] at h
  have hcount : noise.length + tag.length + timestamp.length + data.length + 7 =
      noise.length + (1 + (tag.length + (timestamp ++ sep :: (data ++ [sep])).length + 4)) := by simp; omega
  rw [hcount]
  exact h.run_frame hd hnoise

end Sys2Proof
end
